-- ==== Sys2Proof/Word.lean ====
section
/-!
DEFINITION. The widths of the values the PE moves: a 12-bit command word (R80), an 8-bit byte and a
4-bit nibble (R15). Nothing in the PE is signed (R11).
-/

namespace Sys2Proof

/-- A host command word, `cmd_word[11:0]` (R80). -/
abbrev CmdWord := BitVec 12

/-- A byte, 0..255 (R15). -/
abbrev Byte := BitVec 8

/-- A nibble, 0..15 (R15); bit `i` drives data line D(4+i) (R63). -/
abbrev Nibble := BitVec 4

end Sys2Proof
end

