-- ==== Sys2Proof/Syntax.lean ====
section
/-!
DEFINITION. The command set PE-CMD version 1 as syntax: the three host commands (R3, R80), the fields
of a command word (R80), the internal micro-ops (R14), and the assembler's lines (R87, R89).
-/

namespace Sys2Proof

/-- The Register Selector, "a two-valued enumeration {Command, Data}" (R15). -/
inductive Selector where
  /-- RS = 0. -/
  | command
  /-- RS = 1. -/
  | data
  deriving DecidableEq, Repr

/-- A host command: one constructor per row of spec/opcode_table.json (R80). The operand widths are the
types' own, so every term is a well-formed command (R82). -/
inductive Instr where
  /-- INIT: run the controller initialization sequence (R144). -/
  | init
  /-- NIBBLE: send one nibble (R100). -/
  | nibble (rs : Selector) (n : Nibble)
  /-- BYTE: send one byte as two nibbles, high nibble first (R120). -/
  | byte (rs : Selector) (b : Byte)
  deriving DecidableEq, Repr

/-- The fields of a command word, the one format of R80. -/
structure CmdFields where
  /-- bits 11:9, the opcode. -/
  op  : BitVec 3
  /-- bit 8, the Register Selector. -/
  rs  : Selector
  /-- bits 7:0, the value. -/
  val : Byte
  deriving DecidableEq, Repr

/-- A micro-op (R14): what the PE executes after accepting a command; not a host instruction (R92). -/
inductive MicroOp where
  /-- `NIB(r, v)`: strobe the nibble `v` with RS level `r` (R101). -/
  | nib (r : Selector) (v : Nibble)
  /-- `WAIT(P)`: let `P` edges pass with no line change (R142). -/
  | wait (p : Nat)
  deriving DecidableEq, Repr

/-- One line of the spec's assembler (R87), the pseudo-instructions of R89 included. An immediate is the
number written; whether it is in range is `Asm.wellFormed`'s question. -/
inductive Asm where
  /-- `INIT` -/
  | init
  /-- `NIBBLE <sel>, #<imm4>` -/
  | nibble (sel : Selector) (imm : Nat)
  /-- `BYTE <sel>, #<imm8>` -/
  | byte (sel : Selector) (imm : Nat)
  /-- `FSET_4B_2L` -/
  | fset4b2l
  /-- `CLEAR` -/
  | clear
  /-- `DISP_ON` -/
  | dispOn
  /-- `SETDD #a` -/
  | setdd (a : Nat)
  /-- `ROW1` -/
  | row1
  /-- `ROW2` -/
  | row2
  /-- `PUTC #c` -/
  | putc (c : Nat)
  deriving DecidableEq, Repr

end Sys2Proof
end

