-- ==== Sys2Proof/Machine/Operands.lean ====
section
/-!
DEFINITION. The operand forms of the PE (R82, R121): the Register Selector's bit, the two nibbles of a
byte, and the zero-extension of a nibble into the value field. No operand is signed, scaled or shifted
in any other way (R82).
-/

namespace Sys2Proof

/-- The RS level a selector stands for: 0 = Command, 1 = Data (R15, R22). -/
def Selector.level : Selector → Bool
  | .command => false
  | .data => true

/-- The selector an `rs` bit stands for (R80, R82). -/
def Selector.ofLevel : Bool → Selector
  | false => .command
  | true => .data

/-- The selector as the one-bit `rs` field (R80). -/
def Selector.bit (r : Selector) : BitVec 1 := BitVec.ofBool r.level

/-- `hi = b >> 4 = b[7:4]` (R121). -/
def hiNibble (b : Byte) : Nibble := b.extractLsb' 4 4

/-- `lo = b & 0xF = b[3:0]` (R121). -/
def loNibble (b : Byte) : Nibble := b.extractLsb' 0 4

/-- `zext_8(n)`: the value field a NIBBLE latches into HVAL (R100). -/
def zext8 (n : Nibble) : Byte := n.setWidth 8

end Sys2Proof
end

