-- ==== Sys2Proof/WellFormed.lean ====
section
/-!
DEFINITION. Which syntax is well formed: the fields of a command word (R81, R86) and the immediates of
an assembler line (R87, R89). An `Instr` needs no check: its operands' widths are in their types.
-/

namespace Sys2Proof

namespace CmdFields

/-- The opcode is one of the three assigned ones; 0b000 and 0b100 to 0b111 are reserved (R86). -/
def opAssigned (f : CmdFields) : Bool := f.op == 0b001#3 || f.op == 0b010#3 || f.op == 0b011#3

/-- "the bits `cmd_word[8:0]` of INIT … must be zero" (R86). -/
def initClear (f : CmdFields) : Bool := !(f.op == 0b001#3) || (f.rs == .command && f.val == 0#8)

/-- "… and `cmd_word[7:4]` of NIBBLE must be zero" (R86). -/
def nibbleClear (f : CmdFields) : Bool := !(f.op == 0b010#3) || f.val.extractLsb' 4 4 == 0#4

/-- The fields are those of a command: no bit of R86 stands in the way. -/
def wellFormed (f : CmdFields) : Bool := f.opAssigned && f.initClear && f.nibbleClear

end CmdFields

/-- Every host command is well formed: R82's operand ranges are the operands' types. -/
def Instr.wellFormed : Instr → Bool
  | .init => true
  | .nibble _ _ => true
  | .byte _ _ => true

/-- The assembler's range checks: `<imm4>` is 0..15 and `<imm8>` is 0..255 (R87); `SETDD` takes
0..0x7F (R89). -/
def Asm.wellFormed : Asm → Bool
  | .init => true
  | .nibble _ imm => decide (imm ≤ 15)
  | .byte _ imm => decide (imm ≤ 255)
  | .fset4b2l => true
  | .clear => true
  | .dispOn => true
  | .setdd a => decide (a ≤ 0x7F)
  | .row1 => true
  | .row2 => true
  | .putc c => decide (c ≤ 255)

end Sys2Proof
end

