-- ==== Sys2Proof/Decode.lean ====
section
/-!
DEFINITION. Decoding a command word (R81, R84, R86), the encoder written from the same tables (R80,
R81, R88), and the expansion of an assembler line (R87 to R89).
-/

namespace Sys2Proof

/-- Why a word is no command (R86). The PE records none of these apart: each is rejected ILLEGAL (R170). -/
inductive IllFormed where
  /-- `op` is 0b000 or 0b100 to 0b111. -/
  | reservedOpcode
  /-- `op` is INIT's and `cmd_word[8:0]` is not 0. -/
  | initOperandSet
  /-- `op` is NIBBLE's and `cmd_word[7:4]` is not 0. -/
  | nibbleHighSet
  deriving DecidableEq, Repr

/-- What a word decodes to: a command, or ILLEGAL with the reason (R85). -/
inductive Decoded where
  | command (i : Instr)
  | illegal (why : IllFormed)
  deriving DecidableEq, Repr

/-- The fields of a word: op = w[11:9], rs = w[8], val = w[7:0] (R80, R84). -/
def fieldsOf (w : CmdWord) : CmdFields :=
  { op := w.extractLsb' 9 3, rs := .ofLevel (w.getLsbD 8), val := w.extractLsb' 0 8 }

/-- The opcode map of R81, as the tests of R84's `accept` read it. -/
def decodeFields (f : CmdFields) : Decoded :=
  if f.op = 0b001#3 then
    if f.rs = .command ∧ f.val = 0#8 then .command .init else .illegal .initOperandSet
  else if f.op = 0b010#3 then
    if hiNibble f.val = 0#4 then .command (.nibble f.rs (loNibble f.val)) else .illegal .nibbleHighSet
  else if f.op = 0b011#3 then .command (.byte f.rs f.val)
  else .illegal .reservedOpcode

/-- Decode is total on the 4096 words (R85). -/
def decode (w : CmdWord) : Decoded := decodeFields (fieldsOf w)

/-- The fields put together as a word: `op` in bits 11:9, `rs` in bit 8, `val` in bits 7:0 (R80). -/
def CmdFields.toWord (f : CmdFields) : CmdWord := (f.op ++ f.rs.bit ++ f.val : BitVec (3 + 1 + 8))

/-- The fields of a command's word (R81, R88). -/
def encodeFields : Instr → CmdFields
  | .init => { op := 0b001#3, rs := .command, val := 0#8 }
  | .nibble rs n => { op := 0b010#3, rs := rs, val := zext8 n }
  | .byte rs b => { op := 0b011#3, rs := rs, val := b }

/-- The command word of a command (R88). -/
def encode (i : Instr) : CmdWord := (encodeFields i).toWord

/-- `match` of a command's row in the opcode table (R90). -/
def rowMatch : Instr → CmdWord
  | .init => 0x200#12
  | .nibble _ _ => 0x400#12
  | .byte _ _ => 0x600#12

/-- `mask` of a command's row in the opcode table (R90). -/
def rowMask : Instr → CmdWord
  | .init => 0xFFF#12
  | .nibble _ _ => 0xEF0#12
  | .byte _ _ => 0xE00#12

/-- The command an assembler line stands for; `none` where the assembler refuses it (R87, R89).
Each pseudo-instruction is one BYTE. -/
def Asm.expand : Asm → Option Instr
  | .init => some .init
  | .nibble sel imm => if imm ≤ 15 then some (.nibble sel (BitVec.ofNat 4 imm)) else none
  | .byte sel imm => if imm ≤ 255 then some (.byte sel (BitVec.ofNat 8 imm)) else none
  | .fset4b2l => some (.byte .command 0x28#8)
  | .clear => some (.byte .command 0x01#8)
  | .dispOn => some (.byte .command 0x0C#8)
  | .setdd a => if a ≤ 0x7F then some (.byte .command (0x80#8 ||| BitVec.ofNat 8 a)) else none
  | .row1 => some (.byte .command 0x80#8)
  | .row2 => some (.byte .command 0xC0#8)
  | .putc c => if c ≤ 255 then some (.byte .data (BitVec.ofNat 8 c)) else none

/-- Assembly to word (R88, R89). -/
def Asm.assemble (a : Asm) : Option CmdWord := a.expand.map encode

/-- The command the decoder reads from a word numbered as spec/opcode_table.json numbers it: `nbits`
bits of `w`, every bit above them 0. A command word is exactly 12 bits (R83), so a value with a bit set
above bit 11 is no command word (log 9). -/
def decodeTableWord (nbits w : Nat) : Option Instr :=
  let v := w % 2 ^ nbits
  if v < 4096 then
    match decode (BitVec.ofNat 12 v) with
    | .command i => some i
    | .illegal _ => none
  else none

end Sys2Proof
end

