-- ==== Sys2Proof/Config.lean ====
section
/-!
DEFINITION. The implementation parameters of R7 and R9: what a build of the PE fixes, the constraints
the spec puts on it, the spec's named configurations, and the one build the reset state carries.
-/

namespace Sys2Proof

/-- The parameters a build of the PE fixes (R7). Every one is open: the spec bounds it from below and
gives no value. -/
structure Params where
  /-- `T_TICK_NS`: the clock period in nanoseconds. -/
  tTickNs    : Nat
  /-- `N_E_PULSE`: ticks E is held high in one strobe. -/
  nEPulse    : Nat
  /-- `N_POWER_ON`: ticks of the power-on settle wait. -/
  nPowerOn   : Nat
  /-- `N_WAIT_5MS`: ticks of each 5 ms wait. -/
  nWait5ms   : Nat
  /-- `N_WAIT_100US`: ticks of the 100 µs wait. -/
  nWait100us : Nat
  /-- `N_WAIT_2MS`: ticks of each 2 ms wait. -/
  nWait2ms   : Nat
  /-- `CNT_W`: the width in bits of the delay counter CNT. -/
  cntW       : Nat
  deriving DecidableEq, Repr

/-- The attached controller's open set-up and hold times (R9). -/
structure LcdTiming where
  /-- `LCD_T_SETUP_NS`: how long RS and D must be stable before E rises. -/
  setupNs : Nat
  /-- `LCD_T_HOLD_NS`: how long RS and D must stay stable after E falls. -/
  holdNs  : Nat
  deriving DecidableEq, Repr

/-- `max(1, ceil(ns / tick))`: the smallest count of `tick`-nanosecond periods, at least one, that lasts
`ns` nanoseconds (R7, the constraint column). -/
def minTicks (ns tick : Nat) : Nat := max 1 ((ns + tick - 1) / tick)

namespace Params

/-- The largest count a build loads into CNT, plus one (R7, the `CNT_W` row). -/
def maxCount (P : Params) : Nat :=
  max P.nEPulse (max P.nPowerOn (max P.nWait5ms (max P.nWait100us P.nWait2ms)))

/-- Every count is positive: the condition under which "the rules of the machine are the same" (R8). -/
abbrev CountsPositive (P : Params) : Prop :=
  1 ≤ P.nEPulse ∧ 1 ≤ P.nPowerOn ∧ 1 ≤ P.nWait5ms ∧ 1 ≤ P.nWait100us ∧ 1 ≤ P.nWait2ms

/-- CNT is wide enough for every load: the `CNT_W` row of R7. -/
abbrev CntWide (P : Params) : Prop := P.maxCount - 1 < 2 ^ P.cntW ∧ 1 ≤ P.cntW

/-- The rows of R7 that bound the clock period. -/
abbrev TickCovers (P : Params) (lcd : LcdTiming) : Prop :=
  1 ≤ P.tTickNs ∧ lcd.setupNs ≤ P.tTickNs ∧ lcd.holdNs ≤ P.tTickNs

/-- The rows of R7 that bound the five counts by the source's minimum durations. -/
abbrev MeetsMinima (P : Params) : Prop :=
  minTicks 40000 P.tTickNs ≤ P.nEPulse ∧ minTicks 15000000 P.tTickNs ≤ P.nPowerOn ∧
  minTicks 5000000 P.tTickNs ≤ P.nWait5ms ∧ minTicks 100000 P.tTickNs ≤ P.nWait100us ∧
  minTicks 2000000 P.tTickNs ≤ P.nWait2ms

/-- An admissible parameter choice: every constraint of R7 holds. -/
abbrev Admissible (P : Params) (lcd : LcdTiming) : Prop :=
  P.TickCovers lcd ∧ P.MeetsMinima ∧ P.CntWide

/-- The reference configuration REF (R8). -/
def ref : Params :=
  { tTickNs := 1000, nEPulse := 40, nPowerOn := 15000, nWait5ms := 5000, nWait100us := 100,
    nWait2ms := 2000, cntW := 14 }

/-- The configuration TOY of R8, at a clock period R8 leaves open. -/
def toy (tTickNs : Nat) : Params :=
  { tTickNs := tTickNs, nEPulse := 2, nPowerOn := 5, nWait5ms := 3, nWait100us := 2,
    nWait2ms := 4, cntW := 3 }

/-- The configuration MIN1 of 95_test_vectors.md §1, every count 1.
DESIGN CHOICE, safe (log 16): `CNT_W` is 1, since the spec gives none for MIN1 and any width gives the
same outputs (93_implementation_defined.md row 11). -/
def min1 (tTickNs : Nat) : Params :=
  { tTickNs := tTickNs, nEPulse := 1, nPowerOn := 1, nWait5ms := 1, nWait100us := 1,
    nWait2ms := 1, cntW := 1 }

/-- How far a build lies above each lower bound of R7. -/
structure Margins where
  tick      : Nat
  ePulse    : Nat
  powerOn   : Nat
  wait5ms   : Nat
  wait100us : Nat
  wait2ms   : Nat
  cntW      : Nat
  deriving DecidableEq, Repr

/-- The smallest `CNT_W ≥ 1` with `2 ^ CNT_W > maxCount - 1` (R7). -/
def minCntW (P : Params) : Nat := Nat.log2 (P.maxCount - 1) + 1

/-- The build that lies `m` above the lower bounds of R7. Every admissible build is one of these
(`Laws/Config.lean`), so this leaves the choice as open as R7 does. -/
def ofMargins (lcd : LcdTiming) (m : Margins) : Params :=
  let t := max 1 (max lcd.setupNs lcd.holdNs) + m.tick
  let P : Params :=
    { tTickNs := t, nEPulse := minTicks 40000 t + m.ePulse,
      nPowerOn := minTicks 15000000 t + m.powerOn, nWait5ms := minTicks 5000000 t + m.wait5ms,
      nWait100us := minTicks 100000 t + m.wait100us, nWait2ms := minTicks 2000000 t + m.wait2ms,
      cntW := 0 }
  { P with cntW := P.minCntW + m.cntW }

end Params

namespace Config

/-- `LCD_T_SETUP_NS`: open, no figure in the spec (R9). -/
opaque lcdSetupNs : Nat
/-- `LCD_T_HOLD_NS`: open, no figure in the spec (R9). -/
opaque lcdHoldNs : Nat
/-- The open margin of `T_TICK_NS` above its bound (R7). -/
opaque tickMargin : Nat
/-- The open margin of `N_E_PULSE` above its bound (R7). -/
opaque ePulseMargin : Nat
/-- The open margin of `N_POWER_ON` above its bound (R7). -/
opaque powerOnMargin : Nat
/-- The open margin of `N_WAIT_5MS` above its bound (R7). -/
opaque wait5msMargin : Nat
/-- The open margin of `N_WAIT_100US` above its bound (R7). -/
opaque wait100usMargin : Nat
/-- The open margin of `N_WAIT_2MS` above its bound (R7). -/
opaque wait2msMargin : Nat
/-- The open margin of `CNT_W` above its bound (R7). -/
opaque cntWMargin : Nat

/-- The attached controller's open timing (R9). -/
def lcd : LcdTiming := { setupNs := lcdSetupNs, holdNs := lcdHoldNs }

/-- The build the reset state carries: admissible, and otherwise open (R7).
DESIGN CHOICE, safe (log 2, log 3): no claim can depend on its values. -/
def build : Params :=
  Params.ofMargins lcd
    { tick := tickMargin, ePulse := ePulseMargin, powerOn := powerOnMargin,
      wait5ms := wait5msMargin, wait100us := wait100usMargin, wait2ms := wait2msMargin,
      cntW := cntWMargin }

end Config

end Sys2Proof
end

