-- ==== Sys2Proof/Machine/State.lean ====
section
/-!
DEFINITION. The PE's registers (R21), the model's two fields for the build and the input ports, the
state after reset (R200), and why a step could stop.
-/

namespace Sys2Proof.Machine

/-- PHASE, the sequencer's phase: exactly the five values of R25. -/
inductive Phase where
  /-- IDLE = 0: no command in progress; a command may be accepted. -/
  | idle
  /-- RISE = 1: RS and D were set at the last edge; E rises at the next. -/
  | rise
  /-- HIGH = 2: E is high; CNT counts the remaining high periods. -/
  | high
  /-- NEXT = 3: E fell at the last edge; the next micro-op starts at the next. -/
  | next
  /-- WAIT = 4: a wait is in progress; CNT counts the remaining edges. -/
  | wait
  deriving DecidableEq, Repr

/-- SRC: which sequence is running (R27). -/
inductive Src where
  /-- HOST = 0: the nibbles of a NIBBLE or BYTE. -/
  | host
  /-- INIT = 1: the initialization sequence. -/
  | init
  deriving DecidableEq, Repr

/-- HLEN: the length of the host sequence (R29). -/
inductive HostLen where
  /-- encoding 0: one nibble (NIBBLE). -/
  | one
  /-- encoding 1: two nibbles (BYTE). -/
  | two
  deriving DecidableEq, Repr

/-- ERR: the code of the most recently rejected command (R31). The value 3 is never written. -/
inductive ErrCode where
  /-- NONE = 0: no rejection since reset. -/
  | none
  /-- ILLEGAL = 1 (R170). -/
  | illegal
  /-- NOT_READY = 2 (R171). -/
  | notReady
  deriving DecidableEq, Repr

/-- The input ports at one edge (R35). -/
structure PortInput where
  /-- `rst`: synchronous reset, active high. -/
  rst      : Bool
  /-- `cmd_valid`: the host offers `cmd_word` at this edge. -/
  cmdValid : Bool
  /-- `cmd_word`: the command. -/
  cmdWord  : CmdWord
  deriving DecidableEq, Repr

/-- The PE's complete state (R21), with the build it was made with and the inputs it is about to see. -/
structure State where
  /-- LINE_RS, the level of the RS line (R22). -/
  lineRs : Selector
  /-- LINE_E, the enable line (R23). -/
  lineE  : Bool
  /-- LINE_D, the nibble on D7..D4 (R24). -/
  lineD  : Nibble
  /-- PHASE (R25). -/
  phase  : Phase
  /-- CNT, the down-counter of `CNT_W` bits (R26). DEDUCED, safe (log 4): a number, kept below
  `2 ^ CNT_W` by an invariant. -/
  cnt    : Nat
  /-- SRC (R27). -/
  src    : Src
  /-- UPC, the index of the current micro-op (R28). -/
  upc    : BitVec 5
  /-- HRS, the RS level of the host command being sent (R29). -/
  hrs    : Selector
  /-- HVAL, the value field of the host command being sent (R29). -/
  hval   : Byte
  /-- HLEN (R29). -/
  hlen   : HostLen
  /-- READY: initialization complete (R30). -/
  ready  : Bool
  /-- ERR (R31). -/
  err    : ErrCode
  /-- The MODEL's own field: the parameters of R7, fixed when the PE is built. DESIGN CHOICE, safe (log 2). -/
  build  : Params
  /-- The MODEL's own field: the input ports' values at the coming edges, the next edge first (R20, R35).
  DESIGN CHOICE, safe (log 1). -/
  ports  : List PortInput
  deriving DecidableEq, Repr

/-- The machine right after an edge with `rst == 1`, every register at its reset value (R21, R200); the
build is the open one of `Config` (log 2) and nothing is offered (log 1, log 8). -/
def State.reset : State :=
  { lineRs := .command, lineE := false, lineD := 0x0#4, phase := .idle, cnt := 0, src := .host,
    upc := 0#5, hrs := .command, hval := 0x00#8, hlen := .one, ready := false, err := .none,
    build := Config.build, ports := [] }

/-- The ways the machine stops with a fault: none. "The PE raises nothing else" than its two rejections,
and those are next states (R172, R173, R176). Safe: there is nothing to raise. -/
inductive Fault where
  deriving DecidableEq, Repr

/-- The ways a step has no meaning. -/
inductive Refusal where
  /-- Raised by an arm of `exec` for a command that has no meaning yet; no arm raises it now. Safe. -/
  | notModelled (mnemonic : String)
  deriving DecidableEq, Repr

end Sys2Proof.Machine
end

