-- ==== Sys2Proof/Machine/Ops.lean ====
section
/-!
DEFINITION. The operations the commands and the edge rule share: reading the input ports, resetting
(R200), rejecting a command (R172), the sequence being executed (R42, R43, R140), beginning a micro-op
(R101, R142), and moving through a sequence (R40, R41).
-/

namespace Sys2Proof.Machine

/-! ### The input ports -/

/-- An edge at which the host does nothing: no reset and no offer. -/
def PortInput.quiet : PortInput := { rst := false, cmdValid := false, cmdWord := 0#12 }

/-- An edge at which the host offers the word `w` (R35). -/
def PortInput.offer (w : CmdWord) : PortInput := { rst := false, cmdValid := true, cmdWord := w }

/-- An edge with `rst == 1` and no offer. -/
def PortInput.reset : PortInput := { rst := true, cmdValid := false, cmdWord := 0#12 }

/-- The input ports at the next edge. DESIGN CHOICE, safe (log 1): past the listed edges the host is quiet. -/
def State.port (s : State) : PortInput := s.ports.headD .quiet

/-- The state once the next edge's inputs have been sampled. -/
def State.afterSample (s : State) : State := { s with ports := s.ports.tail }

/-! ### Reset and rejection -/

/-- `reset_all()`: every register to its reset value (R200). -/
def resetAll (s : State) : State :=
  { s with
    lineRs := .command, lineE := false, lineD := 0x0#4
    phase := .idle, cnt := 0, src := .host, upc := 0#5
    hrs := .command, hval := 0x00#8, hlen := .one
    ready := false, err := .none }

/-- `raise Reject(code)`: "the single assignment `ERR <- code` at the acceptance edge. Nothing else
changes" (R172). The PE's one exception entry; there is no return from it (R178). -/
def reject (code : ErrCode) (s : State) : State := { s with err := code }

/-! ### The running sequence -/

/-- `INIT_ROM`, the 17 micro-ops of the initialization sequence (R140). -/
def initRom (P : Params) : List MicroOp :=
  [ .wait P.nPowerOn,                                   -- 0
    .nib .command 0x3#4, .wait P.nWait5ms,              -- 1, 2
    .nib .command 0x3#4, .wait P.nWait100us,            -- 3, 4
    .nib .command 0x3#4, .wait P.nWait5ms,              -- 5, 6
    .nib .command 0x2#4, .wait P.nWait5ms,              -- 7, 8
    .nib .command 0x2#4, .nib .command 0x8#4, .wait P.nWait2ms,   -- 9, 10, 11
    .nib .command 0x0#4, .nib .command 0x1#4, .wait P.nWait2ms,   -- 12, 13, 14
    .nib .command 0x0#4, .nib .command 0xC#4 ]          -- 15, 16

/-- The nibbles of a host command: one for a NIBBLE, two for a BYTE, high nibble first (R43, R62). -/
def hostSequence (hrs : Selector) (hval : Byte) : HostLen → List MicroOp
  | .one => [.nib hrs (loNibble hval)]
  | .two => [.nib hrs (hiNibble hval), .nib hrs (loNibble hval)]

/-- The sequence the PE is executing (R14, R27): the list that R42 gives the length of and R43 the
entries. -/
def State.sequence (s : State) : List MicroOp :=
  match s.src with
  | .init => initRom s.build
  | .host => hostSequence s.hrs s.hval s.hlen

/-- `seqLen(SRC, HLEN)` (R42). -/
def State.seqLen (s : State) : Nat := s.sequence.length

/-- `seqOp(SRC, u, HRS, HVAL, HLEN)`, the micro-op at index `u`; `none` from `seqLen` on (R43). -/
def State.seqOp (s : State) (u : Nat) : Option MicroOp := s.sequence[u]?

/-! ### Micro-ops -/

/-- `begin(NIB(r, v))`: RS and D are set, E is not written (R101). -/
def beginNib (r : Selector) (v : Nibble) (s : State) : State :=
  { s with lineRs := r, lineD := v, phase := .rise }

/-- `begin(WAIT(P))`: no line register is written (R142). -/
def beginWait (p : Nat) (s : State) : State := { s with cnt := p - 1, phase := .wait }

/-- `begin` of a micro-op (R101, R142). -/
def beginOp : MicroOp → State → State
  | .nib r v, s => beginNib r v s
  | .wait p, s => beginWait p s

/-- `complete()`: the sequence ends; the end of INIT sets READY (R41). -/
def complete (s : State) : State :=
  { s with phase := .idle, ready := if s.src = .init then true else s.ready }

/-- `advance()`: the next micro-op of the sequence begins at this edge, or the sequence completes (R40).
`UPC + 1` is computed exactly and only a value below `seqLen` is stored (R126; log 5). -/
def advance (s : State) : State :=
  match s.seqOp (s.upc.toNat + 1) with
  | some op => beginOp op { s with upc := BitVec.ofNat 5 (s.upc.toNat + 1) }
  | none => complete s

end Sys2Proof.Machine
end

