-- ==== Sys2Proof/Machine/Byte.lean ====
section
/-!
DEFINITION. The Byte Transmitter: the BYTE command (R120). Its strobes are the Nibble Transmitter's.
-/

namespace Sys2Proof.Machine

/-- BYTE at its acceptance edge (R84, R120): rejected NOT_READY before READY (R171), else the command is
latched and its high nibble begins. -/
def execByte (rs : Selector) (b : Byte) (s : State) : Host.Outcome State Fault Refusal :=
  .next <|
    if s.ready = false then reject .notReady s
    else beginNib rs (hiNibble b)
      { s with src := .host, hrs := rs, hval := b, hlen := .two, upc := 0#5 }

end Sys2Proof.Machine
end

