-- ==== Sys2Proof/Machine/Init.lean ====
section
/-!
DEFINITION. The Controller Initialization Sequence: the edges of a wait (R143) and the INIT command (R144).
-/

namespace Sys2Proof.Machine

/-- `wait_step()`: CNT runs down, then the next micro-op begins at this edge (R143). -/
def waitStep (s : State) : State :=
  if s.cnt ≠ 0 then { s with cnt := s.cnt - 1 } else advance s

/-- INIT at its acceptance edge (R84, R144): READY is cleared and `INIT_ROM[0] = WAIT(N_POWER_ON)`
begins, whatever READY was (R151). HRS, HVAL, HLEN and ERR are unchanged. -/
def execInit (s : State) : Host.Outcome State Fault Refusal :=
  .next (beginWait s.build.nPowerOn { s with src := .init, upc := 0#5, ready := false })

end Sys2Proof.Machine
end

