-- ==== Sys2Proof/Machine/Nibble.lean ====
section
/-!
DEFINITION. The Nibble Transmitter: the edges of a strobe (R102, R103) and the NIBBLE command (R100).
-/

namespace Sys2Proof.Machine

/-- `nib_rise()`: E is raised and the pulse counter loaded (R102). -/
def nibRise (s : State) : State :=
  { s with lineE := true, cnt := s.build.nEPulse - 1, phase := .high }

/-- `nib_high()`: E stays high until CNT is 0, then falls; the sequence goes on at the next edge or
completes at this one (R103). -/
def nibHigh (s : State) : State :=
  if s.cnt ≠ 0 then { s with cnt := s.cnt - 1 }
  else
    let s1 := { s with lineE := false }
    if s.upc.toNat + 1 < s.seqLen then { s1 with phase := .next } else complete s1

/-- NIBBLE at its acceptance edge (R84, R100): rejected NOT_READY before READY (R171), else the command
is latched and its one nibble begins. -/
def execNibble (rs : Selector) (n : Nibble) (s : State) : Host.Outcome State Fault Refusal :=
  .next <|
    if s.ready = false then reject .notReady s
    else beginNib rs n
      { s with src := .host, hrs := rs, hval := zext8 n, hlen := .one, upc := 0#5 }

end Sys2Proof.Machine
end

