-- ==== Sys2Proof/Machine/Dispatch.lean ====
section
/-!
DEFINITION. The meaning of each command at its acceptance edge: one arm per row of the opcode table.
-/

namespace Sys2Proof.Machine

def exec (i : Instr) (s : State) : Host.Outcome State Fault Refusal :=
  match i with
  | .init => Sys2Proof.Machine.execInit s
  | .nibble rs n => Sys2Proof.Machine.execNibble rs n s
  | .byte rs b => Sys2Proof.Machine.execByte rs b s

end Sys2Proof.Machine
end

