-- ==== Sys2Proof/Machine/Edge.lean ====
section
/-!
DEFINITION. What the PE does at one rising edge of `clk` (R39), with the acceptance of a command word (R84).
-/

namespace Sys2Proof.Machine

/-- `accept(w)`: the word is decoded before READY is tested, so an ill-formed word is ILLEGAL whatever
READY is (R84, R174). -/
def accept (w : CmdWord) (s : State) : Host.Outcome State Fault Refusal :=
  match decode w with
  | .command i => exec i s
  | .illegal _ => .next (reject .illegal s)

/-- `edge(rst, cmd_valid, cmd_word)` (R39). -/
def edge (p : PortInput) (s : State) : Host.Outcome State Fault Refusal :=
  if p.rst then .next (resetAll s)
  else
    match s.phase with
    | .idle => if p.cmdValid then accept p.cmdWord s else .next s
    | .rise => .next (nibRise s)
    | .high => .next (nibHigh s)
    | .next => .next (advance s)
    | .wait => .next (waitStep s)

/-- The 12 wires of `cmd_word` when a word numbered as the opcode table numbers it is put on them: `nbits`
bits of `w`, every bit above them 0 (log 9). -/
def tableWordOnPort (nbits w : Nat) : CmdWord := BitVec.ofNat 12 (w % 2 ^ nbits)

end Sys2Proof.Machine
end

