-- ==== Sys2Proof/Machine/Step.lean ====
section
/-!
DEFINITION. One step of the machine: one rising edge of `clk`, with the inputs the host put on the ports.
-/

namespace Sys2Proof.Machine

/-- One edge: the ports are sampled and the edge rule of R39 runs (R20, R39). -/
def step (s : State) : Host.Outcome State Fault Refusal := edge s.port s.afterSample

/-- `s` with the command word offered at the next edge, in place of whatever the host would have put on
the ports there, and PHASE at IDLE, without which an offer is not taken (R38; log 8, log 9). -/
def State.withFetchWord (s : State) (nbits w : Nat) : State :=
  { s with phase := .idle, ports := PortInput.offer (tableWordOnPort nbits w) :: s.ports.tail }

end Sys2Proof.Machine
end

