-- ==== Sys2Proof/Machine/Flags.lean ====
section
/-!
DEFINITION. The register encodings of R21, the status fields and every output port (R36, R37), each a
function of the registers alone, and the levels of the six lines (R6, R24, R63).
-/

namespace Sys2Proof.Machine

/-- The encoding of PHASE (R21). -/
def Phase.code : Phase → BitVec 3
  | .idle => 0#3
  | .rise => 1#3
  | .high => 2#3
  | .next => 3#3
  | .wait => 4#3

/-- The encoding of SRC (R21). -/
def Src.code : Src → BitVec 1
  | .host => 0#1
  | .init => 1#1

/-- The encoding of HLEN (R21, R29). -/
def HostLen.code : HostLen → BitVec 1
  | .one => 0#1
  | .two => 1#1

/-- The encoding of ERR (R21, R31). -/
def ErrCode.code : ErrCode → BitVec 2
  | .none => 0#2
  | .illegal => 1#2
  | .notReady => 2#2

namespace State

/-- BUSY: 1 if `PHASE != IDLE` (R37). -/
def busy (s : State) : Bool := s.phase != .idle

/-- `cmd_ready`: 1 if `PHASE == IDLE` (R36). -/
def cmdReady (s : State) : Bool := s.phase == .idle

/-- `status[3:0] = {ERR, BUSY, READY}` (R36, R37). -/
def status (s : State) : BitVec 4 :=
  (s.err.code ++ BitVec.ofBool s.busy ++ BitVec.ofBool s.ready : BitVec (2 + 1 + 1))

end State

/-- The output ports (R36). -/
structure Outputs where
  rs       : Bool
  e        : Bool
  d        : Nibble
  cmdReady : Bool
  status   : BitVec 4
  deriving DecidableEq, Repr

/-- The values of the output ports, "each a function of the registers alone" (R36). -/
def State.outputs (s : State) : Outputs :=
  { rs := s.lineRs.level, e := s.lineE, d := s.lineD, cmdReady := s.cmdReady, status := s.status }

/-- The six lines to the controller (R6). -/
inductive Line where
  | rs
  | e
  | d4
  | d5
  | d6
  | d7
  deriving DecidableEq, Repr

/-- The level of a line: output `d[i]` drives line D(4+i) (R24, R63). -/
def Outputs.line (o : Outputs) : Line → Bool
  | .rs => o.rs
  | .e => o.e
  | .d4 => o.d.getLsbD 0
  | .d5 => o.d.getLsbD 1
  | .d6 => o.d.getLsbD 2
  | .d7 => o.d.getLsbD 3

end Sys2Proof.Machine
end

