-- ==== Sys2Proof/Safety.lean ====
section
/-!
DEFINITION. The terms claims about the PE use: runs of edges, what an observer sees (R44 to R46),
which commands were accepted (R38), how long each takes (R145, R214), and the invariants of R47 and R49.
None of it is state of the machine (R21; log 13).
-/

namespace Sys2Proof.Machine

/-! ### Runs -/

/-- `k` edges from `s`, stopping at the first fault or refusal. -/
def run : Nat → State → Host.Outcome State Fault Refusal
  | 0, s => .next s
  | k + 1, s =>
    match step s with
    | .next t => run k t
    | .fault f => .fault f
    | .refused r => .refused r

/-- No reset is asserted at the next `k` edges. -/
abbrev State.NoReset (s : State) (k : Nat) : Prop := ∀ p ∈ s.ports.take k, p.rst = false

/-- No reset is asserted and no command offered at the next `k` edges. -/
abbrev State.QuietFor (s : State) (k : Nat) : Prop :=
  ∀ p ∈ s.ports.take k, p.rst = false ∧ p.cmdValid = false

/-- The host offers the word `w` at the next edge, without reset (R35). -/
abbrev State.Offers (s : State) (w : CmdWord) : Prop :=
  s.port.rst = false ∧ s.port.cmdValid = true ∧ s.port.cmdWord = w

/-! ### What an observer sees -/

/-- One edge of the observation of R46: the inputs at the edge and the outputs after it. -/
structure Observed where
  port : PortInput
  out  : Outputs
  deriving DecidableEq, Repr

/-- The observation of the next `k` edges (R46). -/
def observe : Nat → State → List Observed
  | 0, _ => []
  | k + 1, s =>
    match step s with
    | .next t => { port := s.port, out := t.outputs } :: observe k t
    | .fault _ => []
    | .refused _ => []

/-- A latch event `(t, LINE_RS, LINE_D)`: the edge, and the levels read after it (R44). -/
structure LatchEvent where
  edge : Nat
  rs   : Selector
  d    : Nibble
  deriving DecidableEq, Repr

/-- The latch event at the edge from `s` to `t`, numbered `n`, if there is one (R44). -/
def latchAt (n : Nat) (s t : State) : Option LatchEvent :=
  if s.lineE = true ∧ t.lineE = false ∧ s.port.rst = false then
    some { edge := n, rs := t.lineRs, d := t.lineD }
  else none

/-- A truncated strobe occurs at the next edge: E is 1 before it and `rst == 1` at it (R45). What the
controller takes from it is specified by no source, and no definition here says (log 15). -/
def State.truncatesStrobe (s : State) : Bool := s.lineE && s.port.rst

/-- The latch events of the next `k` edges, the first of which is numbered `n`. -/
def latches (n : Nat) : Nat → State → List LatchEvent
  | 0, _ => []
  | k + 1, s =>
    match step s with
    | .next t => (latchAt n s t).toList ++ latches (n + 1) k t
    | .fault _ => []
    | .refused _ => []

/-- The edges at which E rises among the next `k`, the first of which is numbered `n`. -/
def rises (n : Nat) : Nat → State → List Nat
  | 0, _ => []
  | k + 1, s =>
    match step s with
    | .next t => (if s.lineE = false ∧ t.lineE = true then [n] else []) ++ rises (n + 1) k t
    | .fault _ => []
    | .refused _ => []

/-! ### Accepted commands -/

/-- The word accepted at the next edge: `rst == 0`, `cmd_valid == 1`, `PHASE == IDLE` (R38). -/
def State.accepted (s : State) : Option CmdWord :=
  if s.port.rst = false ∧ s.port.cmdValid = true ∧ s.phase = .idle then some s.port.cmdWord else none

/-- The word is rejected ILLEGAL: the cause of R170, in the rule's own words. -/
abbrev IllegalWord (w : CmdWord) : Prop :=
  w.extractLsb' 9 3 = 0b000#3 ∨ 0b100#3 ≤ w.extractLsb' 9 3 ∨
  (w.extractLsb' 9 3 = 0b001#3 ∧ w.extractLsb' 0 9 ≠ 0#9) ∨
  (w.extractLsb' 9 3 = 0b010#3 ∧ w.extractLsb' 4 4 ≠ 0#4)

/-- The command accepted at the next edge and not rejected (R84). -/
def State.started (s : State) : Option Instr :=
  match s.accepted with
  | none => none
  | some w =>
    match decode w with
    | .illegal _ => none
    | .command i => if i = .init ∨ s.ready = true then some i else none

/-- The commands accepted and not rejected at the next `k` edges, in acceptance order. -/
def startedDuring : Nat → State → List Instr
  | 0, _ => []
  | k + 1, s =>
    match step s with
    | .next t => s.started.toList ++ startedDuring k t
    | .fault _ => []
    | .refused _ => []

/-- The nibbles a command sends, with their RS level: the results of R100, R120 and R144. -/
def nibblesOf : Instr → List (Selector × Nibble)
  | .init =>
    [(.command, 0x3#4), (.command, 0x3#4), (.command, 0x3#4), (.command, 0x2#4), (.command, 0x2#4),
     (.command, 0x8#4), (.command, 0x0#4), (.command, 0x1#4), (.command, 0x0#4), (.command, 0xC#4)]
  | .nibble rs n => [(rs, n)]
  | .byte rs b => [(rs, hiNibble b), (rs, loNibble b)]

/-- The nibble of a `NIB` micro-op; a `WAIT` has none. -/
def nibbleOf : MicroOp → Option (Selector × Nibble)
  | .nib r v => some (r, v)
  | .wait _ => none

/-- The nibbles of the running sequence that have not been latched yet. -/
def State.pending (s : State) : List (Selector × Nibble) :=
  match s.phase with
  | .idle => []
  | .rise => (s.sequence.drop s.upc.toNat).filterMap nibbleOf
  | .high => (s.sequence.drop s.upc.toNat).filterMap nibbleOf
  | .next => (s.sequence.drop (s.upc.toNat + 1)).filterMap nibbleOf
  | .wait => (s.sequence.drop (s.upc.toNat + 1)).filterMap nibbleOf

/-! ### Durations -/

/-- `D_INIT` (R145, R214). -/
def dInit (P : Params) : Nat :=
  P.nPowerOn + 3 * P.nWait5ms + P.nWait100us + 2 * P.nWait2ms + 10 * (P.nEPulse + 2)

/-- The edges from a command's acceptance to the first edge at which the next can be accepted (R214). -/
def edgesOf (P : Params) : Instr → Nat
  | .init => dInit P
  | .nibble _ _ => P.nEPulse + 2
  | .byte _ _ => 2 * P.nEPulse + 4

/-- The ten latch events of an INIT accepted at edge `a`: the table of R145, each nibble latched
`N + 1` edges after its begin edge `b_i`. -/
def initLatches (P : Params) (a : Nat) : List LatchEvent :=
  let n := P.nEPulse
  let k := n + 2
  let p0 := P.nPowerOn
  let p5 := P.nWait5ms
  let p1 := P.nWait100us
  let p2 := P.nWait2ms
  let ev (b : Nat) (v : Nibble) : LatchEvent := { edge := b + n + 1, rs := .command, d := v }
  [ ev (a + p0) 0x3#4,
    ev (a + p0 + k + p5) 0x3#4,
    ev (a + p0 + 2 * k + p5 + p1) 0x3#4,
    ev (a + p0 + 3 * k + 2 * p5 + p1) 0x2#4,
    ev (a + p0 + 4 * k + 3 * p5 + p1) 0x2#4,
    ev (a + p0 + 5 * k + 3 * p5 + p1) 0x8#4,
    ev (a + p0 + 6 * k + 3 * p5 + p1 + p2) 0x0#4,
    ev (a + p0 + 7 * k + 3 * p5 + p1 + p2) 0x1#4,
    ev (a + p0 + 8 * k + 3 * p5 + p1 + 2 * p2) 0x0#4,
    ev (a + p0 + 9 * k + 3 * p5 + p1 + 2 * p2) 0xC#4 ]

/-! ### Invariants -/

/-- Every register at its reset value (R21, R200). The build and the coming inputs are not registers. -/
abbrev State.AtReset (s : State) : Prop :=
  s.lineRs = .command ∧ s.lineE = false ∧ s.lineD = 0x0#4 ∧ s.phase = .idle ∧ s.cnt = 0 ∧
  s.src = .host ∧ s.upc = 0#5 ∧ s.hrs = .command ∧ s.hval = 0x00#8 ∧ s.hlen = .one ∧
  s.ready = false ∧ s.err = .none

/-- The invariant of R47, R49 and R26, with the width condition of R7 it rests on. -/
structure State.Inv (s : State) : Prop where
  /-- "`LINE_E == 1` exactly when `PHASE == HIGH`" (R47). -/
  e_iff_high    : s.lineE = true ↔ s.phase = .high
  /-- "if `PHASE != IDLE` then `UPC < seqLen(SRC, HLEN)`" (R49). -/
  upc_in_seq    : s.phase ≠ .idle → s.upc.toNat < s.seqLen
  /-- "if `PHASE == NEXT` then `UPC + 1 < seqLen(SRC, HLEN)`" (R49). -/
  next_has_more : s.phase = .next → s.upc.toNat + 1 < s.seqLen
  /-- "if `PHASE == HIGH` then `CNT ≤ N_E_PULSE − 1`" (R49). -/
  high_cnt      : s.phase = .high → s.cnt ≤ s.build.nEPulse - 1
  /-- "if `PHASE == WAIT` then `CNT ≤ P − 1` for the `P` of the current `WAIT(P)`" (R49). -/
  wait_cnt      : s.phase = .wait → ∃ p, s.seqOp s.upc.toNat = some (.wait p) ∧ s.cnt ≤ p - 1
  /-- "if `SRC == INIT` and `PHASE != IDLE` then `READY == 0`" (R49). -/
  init_unready  : s.src = .init → s.phase ≠ .idle → s.ready = false
  /-- UPC is one of 0..16 (R21, R28). -/
  upc_le        : s.upc.toNat ≤ 16
  /-- CNT fits its `CNT_W` bits (R21, R26). -/
  cnt_fits      : s.cnt < 2 ^ s.build.cntW
  /-- The build satisfies the `CNT_W` row of R7. -/
  build_wide    : s.build.CntWide

/-- While a nibble is set up, strobed or just latched, the current micro-op is that nibble, and the lines
carry it (DEDUCED from R40, R43, R84 and R101). -/
abbrev State.LinesCarryOp (s : State) : Prop :=
  (s.phase = .rise ∨ s.phase = .high ∨ s.phase = .next) →
    s.seqOp s.upc.toNat = some (.nib s.lineRs s.lineD)

end Sys2Proof.Machine
end

