-- ==== Sys2Proof/Certificates/Slice0/Obligations.lean ====
section
/-!
DEFINITION. The statements for the provers: what the rules of the spec say of this machine.
-/

open Sys2Proof Sys2Proof.Machine

/-! ### Words and commands -/

/-- Decoding the word of any command gives the command back, with every operand value (R80, R82, R88). -/
def Obligations.DecodeOfEncodeIsTheCommand : Prop :=
  ∀ i : Instr, decode (encode i) = .command i

/-- A command has one word: a word that decodes to a command is that command's word (R81, R88). -/
def Obligations.EncodeOfDecodedWordIsTheWord : Prop :=
  ∀ (w : CmdWord) (i : Instr), decode w = .command i → encode i = w

/-- "a word is that command exactly when `(word & mask) == match`", with the three rows of the table; a
word matching no row is ILLEGAL (R90). -/
def Obligations.WordIsCommandExactlyWhenItsRowMatches : Prop :=
  ∀ w : CmdWord,
    (decode w = .command .init ↔ w &&& 0xFFF#12 = 0x200#12) ∧
    ((∃ rs n, decode w = .command (.nibble rs n)) ↔ w &&& 0xEF0#12 = 0x400#12) ∧
    ((∃ rs b, decode w = .command (.byte rs b)) ↔ w &&& 0xE00#12 = 0x600#12) ∧
    ((∃ why, decode w = .illegal why) ↔
      w &&& 0xFFF#12 ≠ 0x200#12 ∧ w &&& 0xEF0#12 ≠ 0x400#12 ∧ w &&& 0xE00#12 ≠ 0x600#12)

/-- The words that decode to no command are those R86 reserves, in the rule's own words (R86, R170). -/
def Obligations.IllegalWordsAreTheReservedOnes : Prop :=
  ∀ w : CmdWord, (∃ why, decode w = .illegal why) ↔ IllegalWord w

/-- "each of the 4096 words is exactly one of INIT (1 word), NIBBLE (32 words), BYTE (512 words) or
ILLEGAL (3551 words)" (R85). -/
def Obligations.DecodeClassesHaveTheCountsOfTheMap : Prop :=
  let cls (w : CmdWord) : Nat :=
    match decode w with
    | .command .init => 0
    | .command (.nibble _ _) => 1
    | .command (.byte _ _) => 2
    | .illegal _ => 3
  let count (c : Nat) : Nat := (List.range 4096).countP fun n => cls (BitVec.ofNat 12 n) == c
  count 0 = 1 ∧ count 1 = 32 ∧ count 2 = 512 ∧ count 3 = 3551

/-- The decode vectors DEC-1 to DEC-15 of 95_test_vectors.md §3.1, in the table's order, each word written out
from the fields of R80. -/
def Obligations.DecodeVectorsHold : Prop :=
  decode 0b001_0_00000000#12 = .command .init ∧
  decode 0b001_0_00000001#12 = .illegal .initOperandSet ∧
  decode 0b001_1_00000000#12 = .illegal .initOperandSet ∧
  decode 0b010_0_0000_0000#12 = .command (.nibble .command 0#4) ∧
  decode 0b010_0_0000_1111#12 = .command (.nibble .command 15#4) ∧
  decode 0b010_1_0000_1111#12 = .command (.nibble .data 15#4) ∧
  decode 0b010_0_0001_0000#12 = .illegal .nibbleHighSet ∧
  decode 0b010_0_1111_0000#12 = .illegal .nibbleHighSet ∧
  decode 0b011_0_00000000#12 = .command (.byte .command 0x00#8) ∧
  decode 0b011_1_11111111#12 = .command (.byte .data 0xFF#8) ∧
  decode 0b000_0_00000000#12 = .illegal .reservedOpcode ∧
  decode 0b000_1_11111111#12 = .illegal .reservedOpcode ∧
  decode 0b100_0_00000000#12 = .illegal .reservedOpcode ∧
  decode 0b100_0_11111111#12 = .illegal .reservedOpcode ∧
  decode 0b111_1_11111111#12 = .illegal .reservedOpcode

/-- "Assembly to word: `INIT` is 0x200; `NIBBLE <sel>, #n` is `0x400 | (rs << 8) | n`; `BYTE <sel>, #b` is
`0x600 | (rs << 8) | b`", of the assembler's lines with every immediate in range and of the encoder's words
(R88). -/
def Obligations.CommandWordsAreTheAssemblersFormulas : Prop :=
  Asm.init.assemble = some 0x200#12 ∧
  (∀ rs n, n ≤ 15 → (Asm.nibble rs n).assemble =
    some (0x400#12 ||| ((rs.bit.setWidth 12) <<< 8) ||| BitVec.ofNat 12 n)) ∧
  (∀ rs b, b ≤ 255 → (Asm.byte rs b).assemble =
    some (0x600#12 ||| ((rs.bit.setWidth 12) <<< 8) ||| BitVec.ofNat 12 b)) ∧
  encode .init = 0x200#12 ∧
  (∀ rs n, encode (.nibble rs n) =
    0x400#12 ||| ((rs.bit.setWidth 12) <<< 8) ||| (n.setWidth 12)) ∧
  (∀ rs b, encode (.byte rs b) =
    0x600#12 ||| ((rs.bit.setWidth 12) <<< 8) ||| (b.setWidth 12))

/-- Each pseudo-instruction expands to exactly the BYTE and the word of R89's table, and `SETDD` refuses
`a > 0x7F` (R89). -/
def Obligations.PseudoInstructionsAreTheirBytes : Prop :=
  Asm.fset4b2l.expand = some (.byte .command 0x28#8) ∧ Asm.fset4b2l.assemble = some 0x628#12 ∧
  Asm.clear.expand = some (.byte .command 0x01#8) ∧ Asm.clear.assemble = some 0x601#12 ∧
  Asm.dispOn.expand = some (.byte .command 0x0C#8) ∧ Asm.dispOn.assemble = some 0x60C#12 ∧
  Asm.row1.expand = (Asm.setdd 0x00).expand ∧ Asm.row1.assemble = some 0x680#12 ∧
  Asm.row2.expand = (Asm.setdd 0x40).expand ∧ Asm.row2.assemble = some 0x6C0#12 ∧
  (∀ a, a ≤ 0x7F →
    (Asm.setdd a).expand = (Asm.byte .command (0x80 ||| a)).expand ∧
    (Asm.setdd a).assemble = some (0x680#12 ||| BitVec.ofNat 12 a)) ∧
  (∀ a, 0x7F < a → (Asm.setdd a).expand = none) ∧
  (∀ c, c ≤ 255 →
    (Asm.putc c).expand = (Asm.byte .data c).expand ∧
    (Asm.putc c).assemble = some (0x700#12 ||| BitVec.ofNat 12 c))

/-- The assembler refuses a line exactly when an immediate is out of its range (R87, R89). -/
def Obligations.AssemblerRefusesExactlyOutOfRangeImmediates : Prop :=
  ∀ a : Asm, a.assemble.isSome = true ↔ a.wellFormed = true

/-- "`hi = b >> 4 = b[7:4]` and `lo = b & 0xF = b[3:0]` … `b = 16·hi + lo` for every byte" (R121). -/
def Obligations.ByteIsItsTwoNibbles : Prop :=
  ∀ b : Byte,
    hiNibble b = (b >>> 4).setWidth 4 ∧ hiNibble b = b.extractLsb' 4 4 ∧
    loNibble b = (b &&& 0xF#8).setWidth 4 ∧ loNibble b = b.extractLsb' 0 4 ∧
    b.toNat = 16 * (hiNibble b).toNat + (loNibble b).toNat

/-! ### The edge and acceptance -/

/-- When the host offers a command's word and the PE is IDLE, the step is that command's meaning, run on
the state with the ports sampled (R38, R39, R84). -/
def Obligations.StepRunsTheDecodedCommand : Prop :=
  ∀ (s : State) (i : Instr),
    s.phase = .idle → s.port.rst = false → s.port.cmdValid = true →
    decode s.port.cmdWord = .command i → step s = exec i s.afterSample

/-- The very next step of a machine given a table word runs the command the decoder reads from it. The
placing of the word is the model's own (log 8, log 9). -/
def Obligations.PlacedWordRunsAtTheNextStep : Prop :=
  ∀ (s : State) (nbits w : Nat) (i : Instr),
    decodeTableWord nbits w = some i →
    step (s.withFetchWord nbits w) = exec i (s.withFetchWord nbits w).afterSample

/-- A word offered in IDLE without reset is accepted; an offer at an edge where `PHASE != IDLE` or
`rst == 1` "is not taken and has no effect" (R38). -/
def Obligations.OfferIsTakenExactlyInIdleWithoutReset : Prop :=
  (∀ s : State, s.port.rst = false → s.port.cmdValid = true → s.phase = .idle →
    step s = accept s.port.cmdWord s.afterSample) ∧
  (∀ (s : State) (p q : PortInput) (rest : List PortInput),
    p.rst = q.rst → (p.rst = true ∨ s.phase ≠ .idle) →
    step { s with ports := p :: rest } = step { s with ports := q :: rest })

/-- `accept(w)`, its tests on the word's own bits and every register it writes, as R84's pseudocode
has them; `begin` is written out (R101, R142) (R84). -/
def Obligations.AcceptFollowsItsPseudocode : Prop :=
  ∀ (w : CmdWord) (s : State),
    let op := w.extractLsb' 9 3
    let r := Selector.ofLevel (w.getLsbD 8)
    let v := w.extractLsb' 0 8
    accept w s = .next
      (if op = 0b001#3 ∧ w.extractLsb' 0 9 = 0#9 then
        { s with src := .init, upc := 0#5, ready := false, cnt := s.build.nPowerOn - 1,
                 phase := .wait }
      else if op = 0b010#3 ∧ v.extractLsb' 4 4 = 0#4 then
        if s.ready = false then { s with err := .notReady }
        else { s with src := .host, hrs := r, hval := v, hlen := .one, upc := 0#5, lineRs := r,
                      lineD := v.extractLsb' 0 4, phase := .rise }
      else if op = 0b011#3 then
        if s.ready = false then { s with err := .notReady }
        else { s with src := .host, hrs := r, hval := v, hlen := .two, upc := 0#5, lineRs := r,
                      lineD := v.extractLsb' 4 4, phase := .rise }
      else { s with err := .illegal })

/-! ### What each command does at its acceptance edge -/

/-- INIT completes its acceptance edge from every state, whatever READY is: the first micro-op of the ROM
begins, READY is cleared, every other register is unchanged (R84, R144, R151). -/
def Obligations.InitBeginsThePowerOnWait : Prop :=
  ∀ s : State, exec .init s = .next
    { s with src := .init, upc := 0#5, ready := false, cnt := s.build.nPowerOn - 1, phase := .wait }

/-- NIBBLE with `READY == 1` completes its acceptance edge: it is latched and its nibble is put on the
lines, every other register is unchanged (R84, R100, R101). -/
def Obligations.NibbleIsLatchedAndSetUp : Prop :=
  ∀ (s : State) (rs : Selector) (n : Nibble), s.ready = true →
    exec (.nibble rs n) s = .next
      { s with src := .host, hrs := rs, hval := n.setWidth 8, hlen := .one, upc := 0#5,
               lineRs := rs, lineD := n, phase := .rise }

/-- BYTE with `READY == 1` completes its acceptance edge: it is latched and its high nibble is put on the
lines, every other register is unchanged (R84, R101, R120). -/
def Obligations.ByteIsLatchedAndItsHighNibbleSetUp : Prop :=
  ∀ (s : State) (rs : Selector) (b : Byte), s.ready = true →
    exec (.byte rs b) s = .next
      { s with src := .host, hrs := rs, hval := b, hlen := .two, upc := 0#5,
               lineRs := rs, lineD := b.extractLsb' 4 4, phase := .rise }

/-- The frame of INIT: no line register, no HRS, HVAL, HLEN and no ERR is written (R144). -/
def Obligations.InitFrame : Prop :=
  ∀ s t : State, exec .init s = .next t →
    t.lineRs = s.lineRs ∧ t.lineE = s.lineE ∧ t.lineD = s.lineD ∧ t.hrs = s.hrs ∧
    t.hval = s.hval ∧ t.hlen = s.hlen ∧ t.err = s.err ∧ t.build = s.build ∧ t.ports = s.ports

/-- The frame of NIBBLE and BYTE: E, CNT and READY are not written; an executed command leaves ERR, a
rejected one everything but ERR (R100, R120, R172). -/
def Obligations.NibbleAndByteFrame : Prop :=
  ∀ (i : Instr) (s t : State),
    ((∃ rs n, i = .nibble rs n) ∨ (∃ rs b, i = .byte rs b)) → exec i s = .next t →
    t.lineE = s.lineE ∧ t.cnt = s.cnt ∧ t.ready = s.ready ∧ t.build = s.build ∧
    t.ports = s.ports ∧ (s.ready = true → t.err = s.err) ∧
    (s.ready = false → t = { s with err := .notReady })

/-- A rejection is the single write of ERR at the acceptance edge: ILLEGAL for a word R170 names,
whatever READY is; NOT_READY for a NIBBLE or BYTE while `READY == 0`; INIT is never rejected. Nothing
else changes, PHASE stays IDLE, and the word is consumed (R170, R171, R172, R174). -/
def Obligations.RejectionWritesOnlyErr : Prop :=
  ∀ s : State, s.phase = .idle → s.port.rst = false → s.port.cmdValid = true →
    (IllegalWord s.port.cmdWord → step s = .next { s.afterSample with err := .illegal }) ∧
    (∀ i, decode s.port.cmdWord = .command i → i ≠ .init → s.ready = false →
      step s = .next { s.afterSample with err := .notReady }) ∧
    (decode s.port.cmdWord = .command .init → ∃ t, step s = .next t ∧ t.err = s.err ∧ t.phase = .wait)

/-! ### The edges of a running sequence -/

/-- `seqLen` and `seqOp` of a host sequence and of INIT (R42, R43). -/
def Obligations.SequenceLengthsAndHostNibbles : Prop :=
  ∀ s : State,
    (s.src = .init → s.seqLen = 17) ∧
    (s.src = .host → s.hlen = .one → s.seqLen = 1) ∧
    (s.src = .host → s.hlen = .two → s.seqLen = 2) ∧
    (s.src = .host → s.hlen = .one → s.seqOp 0 = some (.nib s.hrs (s.hval.extractLsb' 0 4))) ∧
    (s.src = .host → s.hlen = .two → s.seqOp 0 = some (.nib s.hrs (s.hval.extractLsb' 4 4))) ∧
    (s.src = .host → s.hlen = .two → s.seqOp 1 = some (.nib s.hrs (s.hval.extractLsb' 0 4))) ∧
    (∀ u, (s.seqOp u).isSome = true ↔ u < s.seqLen)

/-- The 17 micro-ops of `INIT_ROM`, index by index; every `NIB` has RS = 0 (R140). -/
def Obligations.InitRomHoldsTheTable : Prop :=
  ∀ s : State, s.src = .init →
    s.seqOp 0 = some (.wait s.build.nPowerOn) ∧
    s.seqOp 1 = some (.nib .command 0x3#4) ∧ s.seqOp 2 = some (.wait s.build.nWait5ms) ∧
    s.seqOp 3 = some (.nib .command 0x3#4) ∧ s.seqOp 4 = some (.wait s.build.nWait100us) ∧
    s.seqOp 5 = some (.nib .command 0x3#4) ∧ s.seqOp 6 = some (.wait s.build.nWait5ms) ∧
    s.seqOp 7 = some (.nib .command 0x2#4) ∧ s.seqOp 8 = some (.wait s.build.nWait5ms) ∧
    s.seqOp 9 = some (.nib .command 0x2#4) ∧ s.seqOp 10 = some (.nib .command 0x8#4) ∧
    s.seqOp 11 = some (.wait s.build.nWait2ms) ∧
    s.seqOp 12 = some (.nib .command 0x0#4) ∧ s.seqOp 13 = some (.nib .command 0x1#4) ∧
    s.seqOp 14 = some (.wait s.build.nWait2ms) ∧
    s.seqOp 15 = some (.nib .command 0x0#4) ∧ s.seqOp 16 = some (.nib .command 0xC#4) ∧
    s.seqOp 17 = none

/-- `nib_rise()` and `nib_high()`, with every register that keeps its value (R102, R103); the end of the
sequence is `complete()` (R41). -/
def Obligations.StrobeEdgesRaiseHoldAndDropE : Prop :=
  ∀ s : State, s.port.rst = false →
    (s.phase = .rise →
      step s = .next { s.afterSample with lineE := true, cnt := s.build.nEPulse - 1, phase := .high }) ∧
    (s.phase = .high → s.cnt ≠ 0 →
      step s = .next { s.afterSample with cnt := s.cnt - 1 }) ∧
    (s.phase = .high → s.cnt = 0 → s.upc.toNat + 1 < s.seqLen →
      step s = .next { s.afterSample with lineE := false, phase := .next }) ∧
    (s.phase = .high → s.cnt = 0 → s.seqLen ≤ s.upc.toNat + 1 → s.src = .init →
      step s = .next { s.afterSample with lineE := false, phase := .idle, ready := true }) ∧
    (s.phase = .high → s.cnt = 0 → s.seqLen ≤ s.upc.toNat + 1 → s.src = .host →
      step s = .next { s.afterSample with lineE := false, phase := .idle })

/-- `wait_step()` and `advance()`, with every register that keeps its value: a wait runs down; then, as in
phase NEXT, the next micro-op begins at this edge or the sequence completes (R40, R41, R101, R142, R143). -/
def Obligations.WaitRunsDownAndTheNextMicroOpBegins : Prop :=
  ∀ s : State, s.port.rst = false →
    (s.phase = .wait → s.cnt ≠ 0 → step s = .next { s.afterSample with cnt := s.cnt - 1 }) ∧
    (s.phase = .next ∨ (s.phase = .wait ∧ s.cnt = 0) →
      (∀ r v, s.seqOp (s.upc.toNat + 1) = some (.nib r v) →
        step s = .next { s.afterSample with
          upc := s.upc + 1, lineRs := r, lineD := v, phase := .rise }) ∧
      (∀ p, s.seqOp (s.upc.toNat + 1) = some (.wait p) →
        step s = .next { s.afterSample with upc := s.upc + 1, cnt := p - 1, phase := .wait }) ∧
      (s.seqLen ≤ s.upc.toNat + 1 → s.src = .init →
        step s = .next { s.afterSample with phase := .idle, ready := true }) ∧
      (s.seqLen ≤ s.upc.toNat + 1 → s.src = .host →
        step s = .next { s.afterSample with phase := .idle }))

/-! ### Reset -/

/-- The reset state has every register at the value R21 and R200 give it, shows the outputs of R200, and
holds an admissible build (R7) and no coming input (the model's choice, log 1, log 2). -/
def Obligations.ResetStateHasTheResetValues : Prop :=
  State.reset.AtReset ∧
  State.reset.outputs =
    { rs := false, e := false, d := 0x0#4, cmdReady := true, status := 0b0000#4 } ∧
  State.reset.build.Admissible Config.lcd ∧ State.reset.ports = []

/-- From ANY state, an edge with `rst == 1` sets every register to its reset value whatever is offered, and
holding `rst` for several edges gives the same state as one; the outputs after it are those of R200 (R200). -/
def Obligations.ResetEdgesSetEveryRegister : Prop :=
  ∀ (s : State) (k : Nat), 1 ≤ k → k ≤ s.ports.length → (∀ p ∈ s.ports.take k, p.rst = true) →
    ∃ t, run k s = .next t ∧ t.AtReset ∧ t.build = s.build ∧ t.ports = s.ports.drop k ∧
      t.outputs = { rs := false, e := false, d := 0x0#4, cmdReady := true, status := 0b0000#4 }

/-- What came before a reset edge cannot be observed after it: two machines of one build and one input
schedule, the first edge a reset, show the same trace, whatever their registers held (R200, R202). -/
def Obligations.NothingBeforeAResetShowsAfterIt : Prop :=
  ∀ (s t : State) (k : Nat), s.build = t.build → s.ports = t.ports → s.port.rst = true →
    observe k s = observe k t

/-! ### Who writes which register -/

/-- LINE_E "is set to 1 only in phase RISE and to 0 only at the end of phase HIGH or by reset" (R23). -/
def Obligations.LineEIsWrittenOnlyByTheStrobeAndReset : Prop :=
  ∀ s t : State, step s = .next t →
    t.lineE =
      if s.port.rst = true then false
      else if s.phase = .rise then true
      else if s.phase = .high ∧ s.cnt = 0 then false
      else s.lineE

/-- SRC is written only when a command is accepted and not rejected, and by reset (R27); HRS, HVAL and HLEN
only when a NIBBLE or BYTE is, and by reset; INIT leaves them unchanged (R29). -/
def Obligations.SourceAndHostLatchAreWrittenOnlyAtAcceptance : Prop :=
  ∀ s t : State, step s = .next t →
    (s.port.rst = true → t.src = .host ∧ t.hrs = .command ∧ t.hval = 0x00#8 ∧ t.hlen = .one) ∧
    (s.port.rst = false →
      match s.started with
      | none => t.src = s.src ∧ t.hrs = s.hrs ∧ t.hval = s.hval ∧ t.hlen = s.hlen
      | some .init => t.src = .init ∧ t.hrs = s.hrs ∧ t.hval = s.hval ∧ t.hlen = s.hlen
      | some (.nibble rs n) => t.src = .host ∧ t.hrs = rs ∧ t.hval = n.setWidth 8 ∧ t.hlen = .one
      | some (.byte rs b) => t.src = .host ∧ t.hrs = rs ∧ t.hval = b ∧ t.hlen = .two)

/-- UPC "is set to 0 when a command is accepted and advanced by one by rule R40"; nothing but R40 changes it
after acceptance, but for reset; in a running sequence it is 0..16 for INIT and 0..1 for a host
sequence (R28). -/
def Obligations.UpcIsSetAtAcceptanceAndAdvancedByOne : Prop :=
  (∀ s t : State, step s = .next t →
    t.upc =
      if s.port.rst = true ∨ s.started.isSome = true then 0#5
      else if (s.phase = .next ∨ (s.phase = .wait ∧ s.cnt = 0)) ∧ s.upc.toNat + 1 < s.seqLen then
        s.upc + 1
      else s.upc) ∧
  (∀ s : State, s.Inv → s.phase ≠ .idle →
    (s.src = .init → s.upc.toNat ≤ 16) ∧ (s.src = .host → s.upc.toNat ≤ 1))

/-- CNT at every edge: reset clears it; the rise of E loads `N_E_PULSE - 1`; an INIT that starts loads
`N_POWER_ON - 1`; a `WAIT(P)` that begins in phase NEXT, or in WAIT when CNT is 0, loads `P - 1`; in HIGH and
WAIT it is decremented when non-zero; else it is unchanged. It never leaves its `CNT_W` bits (R26). -/
def Obligations.CntIsOnlyLoadedOrDecremented : Prop :=
  ∀ s t : State, step s = .next t →
    (t.cnt =
      if s.port.rst = true then 0
      else if s.phase = .rise then s.build.nEPulse - 1
      else if s.started = some .init then s.build.nPowerOn - 1
      else if s.phase = .next ∨ (s.phase = .wait ∧ s.cnt = 0) then
        match s.seqOp (s.upc.toNat + 1) with
        | some (.wait p) => p - 1
        | some (.nib _ _) => s.cnt
        | none => s.cnt
      else if (s.phase = .high ∨ s.phase = .wait) ∧ s.cnt ≠ 0 then s.cnt - 1
      else s.cnt) ∧
    (s.Inv → t.cnt < 2 ^ t.build.cntW)

/-- READY is "set to 1 only by rule R41 at the end of an INIT sequence and set to 0 by acceptance of an INIT
and by reset" (R30). -/
def Obligations.ReadyIsWrittenOnlyByInitAndReset : Prop :=
  ∀ s t : State, step s = .next t →
    t.ready =
      if s.port.rst = true ∨ s.accepted = some 0x200#12 then false
      else if s.src = .init ∧ s.phase ≠ .idle ∧ t.phase = .idle then true
      else s.ready

/-- ERR "is written only by a rejection and by reset; an accepted command does not clear it. The value 3 is
never written." (R31) -/
def Obligations.ErrIsWrittenOnlyByRejectionAndReset : Prop :=
  (∀ s t : State, step s = .next t →
    t.err =
      if s.port.rst = true then .none
      else
        match s.accepted with
        | none => s.err
        | some w =>
          if IllegalWord w then .illegal
          else if w ≠ 0x200#12 ∧ s.ready = false then .notReady
          else s.err) ∧
  (∀ c : ErrCode, c.code ≠ 3#2)

/-- LINE_RS and LINE_D "change only at an edge at which a `NIB` micro-op begins or `rst == 1`. Such an edge is
always in phase IDLE, NEXT or WAIT before the edge, where `LINE_E == 0`" (R48). -/
def Obligations.RsAndDChangeOnlyWhereANibbleBegins : Prop :=
  ∀ s t : State, s.Inv → step s = .next t → (t.lineRs ≠ s.lineRs ∨ t.lineD ≠ s.lineD) →
    s.port.rst = true ∨
    ((s.phase = .idle ∨ s.phase = .next ∨ s.phase = .wait) ∧ s.lineE = false ∧ t.lineE = false ∧
      t.phase = .rise ∧ t.seqOp t.upc.toNat = some (.nib t.lineRs t.lineD))

/-- Every edge answers a next state, no step changes the build (R7, R37), and an edge uses up exactly one
edge's inputs (the model's own bookkeeping, log 1). -/
def Obligations.EveryEdgeGoesOnAndKeepsTheBuild : Prop :=
  ∀ s : State, ∃ t, step s = .next t ∧ t.build = s.build ∧ t.ports = s.ports.tail

/-- "With no command offered, the PE stays IDLE indefinitely and the lines keep their last levels": in any
number of quiet edges no register changes (R213, R186). -/
def Obligations.IdleWithoutOfferKeepsEveryRegister : Prop :=
  ∀ (s : State) (k : Nat), s.phase = .idle → s.QuietFor k →
    run k s = .next { s with ports := s.ports.drop k }

/-! ### Outputs -/

/-- The output ports and the status fields, bit by bit: `status = {ERR, BUSY, READY}`, `status[3:2]` is 0 NONE,
1 ILLEGAL, 2 NOT_READY and never 3, `cmd_ready` the inverse of BUSY, `d[i]` on line D(4+i) (R36, R37, R63). -/
def Obligations.OutputsShowTheRegisters : Prop :=
  ∀ s : State,
    s.outputs.rs = s.lineRs.level ∧ s.outputs.e = s.lineE ∧ s.outputs.d = s.lineD ∧
    (s.outputs.cmdReady = true ↔ s.phase = .idle) ∧
    s.outputs.status.getLsbD 0 = s.ready ∧
    (s.outputs.status.getLsbD 1 = true ↔ s.phase ≠ .idle) ∧
    s.outputs.status.extractLsb' 2 2 = s.err.code ∧ s.outputs.status.extractLsb' 2 2 ≠ 3#2 ∧
    ErrCode.none.code = 0#2 ∧ ErrCode.illegal.code = 1#2 ∧ ErrCode.notReady.code = 2#2 ∧
    s.outputs.line .rs = s.lineRs.level ∧ s.outputs.line .e = s.lineE ∧
    s.outputs.line .d4 = s.lineD.getLsbD 0 ∧ s.outputs.line .d5 = s.lineD.getLsbD 1 ∧
    s.outputs.line .d6 = s.lineD.getLsbD 2 ∧ s.outputs.line .d7 = s.lineD.getLsbD 3

/-- The registers R50 calls hidden have no effect on a machine in IDLE: two IDLE machines of one build and one
input schedule that show the same outputs show the same trace for ever (R50, 95_test_vectors.md S_RDY). -/
def Obligations.HiddenRegistersOfAnIdleMachineDoNotShow : Prop :=
  ∀ (s t : State) (k : Nat), s.phase = .idle → t.phase = .idle → s.outputs = t.outputs →
    s.build = t.build → s.ports = t.ports → observe k s = observe k t

/-! ### Invariants -/

/-- The reset state meets the invariant of R47, R49 and R26. -/
def Obligations.ResetStateMeetsTheInvariant : Prop := State.reset.Inv ∧ State.reset.LinesCarryOp

/-- Every edge keeps the invariant: E is high exactly in HIGH, UPC stays inside its sequence, CNT inside its
bound and its width, READY is 0 while INIT runs (R26, R47, R49). -/
def Obligations.EveryEdgeKeepsTheInvariant : Prop :=
  ∀ s t : State, s.Inv → step s = .next t → t.Inv

/-- Every edge keeps the lines on the current micro-op's nibble while it is set up and strobed (R43, R101). -/
def Obligations.EveryEdgeKeepsTheLinesOnTheCurrentNibble : Prop :=
  ∀ s t : State, s.LinesCarryOp → step s = .next t → t.LinesCarryOp

/-- "In every state reachable from reset": for every build wide enough and every host input sequence, resets
included, every state of a run from the reset values has E high exactly in HIGH (R47) and the bounds of
R49. -/
def Obligations.StatesReachableFromResetMeetTheInvariant : Prop :=
  ∀ (s t : State) (k : Nat), s.AtReset → s.build.CntWide → run k s = .next t →
    (t.lineE = true ↔ t.phase = .high) ∧
    (t.phase ≠ .idle → t.upc.toNat < t.seqLen) ∧
    (t.phase = .next → t.upc.toNat + 1 < t.seqLen) ∧
    (t.phase = .high → t.cnt ≤ t.build.nEPulse - 1) ∧
    (t.phase = .wait → ∃ p, t.seqOp t.upc.toNat = some (.wait p) ∧ t.cnt ≤ p - 1) ∧
    (t.src = .init → t.phase ≠ .idle → t.ready = false)

/-! ### Strobes and the latch stream -/

/-- A latch event carries the levels of before the edge (R44); a fall of E at a reset edge is a truncated
strobe and no latch event, and RS and D are 0 after it (R45). -/
def Obligations.LatchEventsAndTruncatedStrobesAreApart : Prop :=
  ∀ (n : Nat) (s t : State), s.Inv → step s = .next t →
    (∀ ev, latchAt n s t = some ev →
      ev.edge = n ∧ ev.rs = s.lineRs ∧ ev.d = s.lineD ∧ s.port.rst = false ∧
      s.phase = .high ∧ s.cnt = 0) ∧
    (s.truncatesStrobe = true →
      latchAt n s t = none ∧ t.lineE = false ∧ t.lineRs = .command ∧ t.lineD = 0x0#4)

/-- The strobe of a nibble whose levels are set up: E is low before it, changes to 1 at the next edge and at no
other, is high for exactly `N_E_PULSE` periods, and falls in the one latch event; RS and D hold through the fall
(R104, R105, R107). -/
def Obligations.EnablePulseIsExactlyNPeriods : Prop :=
  ∀ s : State, s.Inv → s.phase = .rise → 1 ≤ s.build.nEPulse → s.NoReset (s.build.nEPulse + 1) →
    s.lineE = false ∧ rises 0 (s.build.nEPulse + 1) s = [0] ∧
    latches 0 (s.build.nEPulse + 1) s =
      [{ edge := s.build.nEPulse, rs := s.lineRs, d := s.lineD }] ∧
    (∀ j, 1 ≤ j → j ≤ s.build.nEPulse →
      ∃ u, run j s = .next u ∧ u.lineE = true ∧ u.lineRs = s.lineRs ∧ u.lineD = s.lineD) ∧
    (∃ u, run (s.build.nEPulse + 1) s = .next u ∧ u.lineE = false ∧ u.lineRs = s.lineRs ∧
      u.lineD = s.lineD)

/-- A NIBBLE accepted with `READY == 1` occupies exactly the N+2 edges from its acceptance, makes exactly one
rise of E and one latch event `(a+N+1, rs, n)`, and leaves the PE IDLE with its levels on the lines; the
host's other inputs in that time have no effect (R100, R104, R106). -/
def Obligations.NibbleRunsInNPlusTwoEdges : Prop :=
  ∀ (s : State) (rs : Selector) (n : Nibble),
    s.phase = .idle → s.lineE = false → s.ready = true → 1 ≤ s.build.nEPulse →
    s.Offers (encode (.nibble rs n)) → s.NoReset (s.build.nEPulse + 2) →
    (∀ j, 0 < j → j < s.build.nEPulse + 2 → ∃ u, run j s = .next u ∧ u.phase ≠ .idle) ∧
    latches 0 (s.build.nEPulse + 2) s = [{ edge := s.build.nEPulse + 1, rs := rs, d := n }] ∧
    rises 0 (s.build.nEPulse + 2) s = [1] ∧
    ∃ t, run (s.build.nEPulse + 2) s = .next t ∧ t.phase = .idle ∧ t.lineRs = rs ∧ t.lineD = n ∧
      t.lineE = false ∧ t.ready = true ∧ t.err = s.err

/-- A BYTE accepted with `READY == 1` occupies exactly the 2N+4 edges from its acceptance and makes exactly two
latch events, high nibble first, with one RS level that no later input changes; E rises exactly at a+1
and a+N+3 (R120, R122, R123). -/
def Obligations.ByteRunsInTwoNPlusFourEdges : Prop :=
  ∀ (s : State) (rs : Selector) (b : Byte),
    s.phase = .idle → s.lineE = false → s.ready = true → 1 ≤ s.build.nEPulse →
    s.Offers (encode (.byte rs b)) → s.NoReset (2 * s.build.nEPulse + 4) →
    (∀ j, 0 < j → j < 2 * s.build.nEPulse + 4 → ∃ u, run j s = .next u ∧ u.phase ≠ .idle) ∧
    latches 0 (2 * s.build.nEPulse + 4) s =
      [{ edge := s.build.nEPulse + 1, rs := rs, d := b.extractLsb' 4 4 },
       { edge := 2 * s.build.nEPulse + 3, rs := rs, d := b.extractLsb' 0 4 }] ∧
    rises 0 (2 * s.build.nEPulse + 4) s = [1, s.build.nEPulse + 3] ∧
    ∃ t, run (2 * s.build.nEPulse + 4) s = .next t ∧ t.phase = .idle ∧ t.lineRs = rs ∧
      t.lineD = b.extractLsb' 0 4 ∧ t.lineE = false ∧ t.ready = true ∧ t.err = s.err

/-- An INIT accepted in any IDLE state makes exactly the ten latch events of R145's table, all with RS = 0, at
edges that depend only on the acceptance edge and the build; READY is 0 and nothing is accepted until the
last, READY is 1 after it, D_INIT edges from acceptance (R144, R145, R152, R153). -/
def Obligations.InitRunsItsTenNibbles : Prop :=
  ∀ s : State,
    s.phase = .idle → s.lineE = false → s.build.CountsPositive →
    s.Offers 0x200#12 → s.NoReset (dInit s.build) →
    (∀ j, 0 < j → j < dInit s.build →
      ∃ u, run j s = .next u ∧ u.phase ≠ .idle ∧ u.ready = false ∧ u.accepted = none) ∧
    latches 0 (dInit s.build) s = initLatches s.build 0 ∧
    rises 0 (dInit s.build) s = (initLatches s.build 0).map (fun ev => ev.edge - s.build.nEPulse) ∧
    ∃ t, run (dInit s.build) s = .next t ∧ t.phase = .idle ∧ t.ready = true ∧ t.src = .init ∧
      t.upc = 16#5 ∧ t.lineRs = .command ∧ t.lineD = 0xC#4 ∧ t.lineE = false ∧ t.err = s.err ∧
      t.hrs = s.hrs ∧ t.hval = s.hval ∧ t.hlen = s.hlen

/-- "the latch stream is exactly the concatenation, in acceptance order, of the nibbles of the accepted,
non-rejected commands": over any edges without reset, the nibbles latched, then those still to come of the
running command, are those still to come at the start, then the nibbles of the commands accepted; a command
is accepted only when none is still to come (R71). -/
def Obligations.LatchStreamIsTheAcceptedCommandsNibbles : Prop :=
  ∀ (n k : Nat) (s t : State), s.Inv → s.LinesCarryOp → s.NoReset k → run k s = .next t →
    (latches n k s).map (fun ev => (ev.rs, ev.d)) ++ t.pending =
      s.pending ++ (startedDuring k s).flatMap nibblesOf ∧
    (t.accepted.isSome = true → t.pending = [])

/-- "Every accepted command returns the PE to IDLE after a bounded number of edges unless reset intervenes": from
every state of the two invariants the PE is IDLE again in fewer than D_INIT edges without reset (R213, R214). -/
def Obligations.EveryCommandReturnsToIdle : Prop :=
  ∀ s : State, s.Inv → s.LinesCarryOp → s.build.CountsPositive → s.NoReset (dInit s.build) →
    ∃ k, k < dInit s.build ∧ ∃ t, run k s = .next t ∧ t.phase = .idle

/-! ### The build's parameters -/

/-- In an admissible build each count lasts at least the source's minimum, and T covers the controller's set-up
and hold times (R7, R9, R105, R146). -/
def Obligations.AdmissibleCountsLastTheSourceMinima : Prop :=
  ∀ (P : Params) (lcd : LcdTiming), P.Admissible lcd →
    40000 ≤ P.nEPulse * P.tTickNs ∧ 15000000 ≤ P.nPowerOn * P.tTickNs ∧
    5000000 ≤ P.nWait5ms * P.tTickNs ∧ 100000 ≤ P.nWait100us * P.tTickNs ∧
    2000000 ≤ P.nWait2ms * P.tTickNs ∧ P.CountsPositive ∧
    lcd.setupNs ≤ P.tTickNs ∧ lcd.holdNs ≤ P.tTickNs

/-- The open margins give exactly the admissible builds: no admissible build is shut out of `Config.build` and no
other let in (R7; the model's own construction, log 3). -/
def Obligations.MarginsGiveExactlyTheAdmissibleBuilds : Prop :=
  ∀ (P : Params) (lcd : LcdTiming), P.Admissible lcd ↔ ∃ m, P = Params.ofMargins lcd m

/-- REF is admissible for a controller whose times a 1 µs tick covers; TOY meets the bounds "only when
`T_TICK_NS ≥ 3 000 000`" (R8); in REF a NIBBLE takes 42 edges, a BYTE 84 and an INIT 34 520 (R214). -/
def Obligations.ReferenceAndToyConfigurations : Prop :=
  (∀ lcd : LcdTiming, Params.ref.Admissible lcd ↔ lcd.setupNs ≤ 1000 ∧ lcd.holdNs ≤ 1000) ∧
  (∀ T : Nat, 1 ≤ T → ((Params.toy T).MeetsMinima ↔ 3000000 ≤ T)) ∧
  (∀ T : Nat, (Params.toy T).CntWide) ∧
  (∀ rs n, edgesOf .ref (.nibble rs n) = 42) ∧ (∀ rs b, edgesOf .ref (.byte rs b) = 84) ∧
  edgesOf .ref .init = 34520
end

