-- ==== Sys2Proof/Laws/Decode.lean ====
section
/-!
SUPPORT. The fields of a command word and the word are one another's (R80, R82), and the nibbles of a byte
make the byte (R121).
-/

namespace Sys2Proof

@[simp] theorem Selector.ofLevel_level (r : Selector) : Selector.ofLevel r.level = r := by
  cases r <;> rfl

@[simp] theorem Selector.level_ofLevel (b : Bool) : (Selector.ofLevel b).level = b := by
  cases b <;> rfl

/-- Each bit of a word put together from fields (R80). -/
theorem toWord_getLsbD (f : CmdFields) (i : Nat) :
    f.toWord.getLsbD i =
      if i < 8 then f.val.getLsbD i else if i = 8 then f.rs.level else f.op.getLsbD (i - 9) := by
  simp only [CmdFields.toWord, BitVec.getLsbD_append, Selector.bit, BitVec.getLsbD_ofBool]
  by_cases h1 : i < 8
  · simp [h1]
  · by_cases h2 : i = 8
    · subst h2; simp
    · have h3 : ¬ i - 8 < 1 := by omega
      have h4 : i - 8 - 1 = i - 9 := by omega
      simp [h1, h2, h3, h4]

/-- The opcode field of a word put together from fields. -/
theorem toWord_op (f : CmdFields) : f.toWord.extractLsb' 9 3 = f.op := by
  apply BitVec.eq_of_getLsbD_eq
  intro i hi
  have h1 : ¬ 9 + i < 8 := by omega
  have h2 : ¬ 9 + i = 8 := by omega
  have h3 : 9 + i - 9 = i := by omega
  simp only [BitVec.getLsbD_extractLsb', toWord_getLsbD, h1, h2, h3, hi, if_false, decide_true,
    Bool.true_and]

/-- The `rs` field of a word put together from fields. -/
theorem toWord_rs (f : CmdFields) : f.toWord.getLsbD 8 = f.rs.level := by
  simp only [toWord_getLsbD, Nat.lt_irrefl, if_false, if_true]

/-- The `val` field of a word put together from fields. -/
theorem toWord_val (f : CmdFields) : f.toWord.extractLsb' 0 8 = f.val := by
  apply BitVec.eq_of_getLsbD_eq
  intro i hi
  simp only [BitVec.getLsbD_extractLsb', toWord_getLsbD, Nat.zero_add, hi, if_true, decide_true,
    Bool.true_and]

/-- The fields of a word put together from fields are those fields (R80). -/
@[simp] theorem fieldsOf_toWord (f : CmdFields) : fieldsOf f.toWord = f := by
  simp only [fieldsOf, toWord_op, toWord_rs, toWord_val, Selector.ofLevel_level]

/-- The zero-extension of a nibble has the nibble as its low half and 0 as its high half (R100, R121). -/
@[simp] theorem loNibble_zext8 (n : Nibble) : loNibble (zext8 n) = n := by
  revert n; decide

@[simp] theorem hiNibble_zext8 (n : Nibble) : hiNibble (zext8 n) = 0#4 := by
  revert n; decide

end Sys2Proof
end

