-- ==== Sys2Proof/Laws/State.lean ====
section
/-!
SUPPORT. One lemma per field and named update of State: what the update leaves in the field.
-/

namespace Sys2Proof.Machine

/-! ### Sampling the input ports moves past one edge's inputs -/

@[simp] theorem State.afterSample_lineRs (s : State) : s.afterSample.lineRs = s.lineRs := rfl
@[simp] theorem State.afterSample_lineE (s : State) : s.afterSample.lineE = s.lineE := rfl
@[simp] theorem State.afterSample_lineD (s : State) : s.afterSample.lineD = s.lineD := rfl
@[simp] theorem State.afterSample_phase (s : State) : s.afterSample.phase = s.phase := rfl
@[simp] theorem State.afterSample_cnt (s : State) : s.afterSample.cnt = s.cnt := rfl
@[simp] theorem State.afterSample_src (s : State) : s.afterSample.src = s.src := rfl
@[simp] theorem State.afterSample_upc (s : State) : s.afterSample.upc = s.upc := rfl
@[simp] theorem State.afterSample_hrs (s : State) : s.afterSample.hrs = s.hrs := rfl
@[simp] theorem State.afterSample_hval (s : State) : s.afterSample.hval = s.hval := rfl
@[simp] theorem State.afterSample_hlen (s : State) : s.afterSample.hlen = s.hlen := rfl
@[simp] theorem State.afterSample_ready (s : State) : s.afterSample.ready = s.ready := rfl
@[simp] theorem State.afterSample_err (s : State) : s.afterSample.err = s.err := rfl
@[simp] theorem State.afterSample_build (s : State) : s.afterSample.build = s.build := rfl
@[simp] theorem State.afterSample_ports (s : State) : s.afterSample.ports = s.ports.tail := rfl

/-! ### `reset_all()` (R200) -/

@[simp] theorem resetAll_lineRs (s : State) : (resetAll s).lineRs = .command := rfl
@[simp] theorem resetAll_lineE (s : State) : (resetAll s).lineE = false := rfl
@[simp] theorem resetAll_lineD (s : State) : (resetAll s).lineD = 0x0#4 := rfl
@[simp] theorem resetAll_phase (s : State) : (resetAll s).phase = .idle := rfl
@[simp] theorem resetAll_cnt (s : State) : (resetAll s).cnt = 0 := rfl
@[simp] theorem resetAll_src (s : State) : (resetAll s).src = .host := rfl
@[simp] theorem resetAll_upc (s : State) : (resetAll s).upc = 0#5 := rfl
@[simp] theorem resetAll_hrs (s : State) : (resetAll s).hrs = .command := rfl
@[simp] theorem resetAll_hval (s : State) : (resetAll s).hval = 0x00#8 := rfl
@[simp] theorem resetAll_hlen (s : State) : (resetAll s).hlen = .one := rfl
@[simp] theorem resetAll_ready (s : State) : (resetAll s).ready = false := rfl
@[simp] theorem resetAll_err (s : State) : (resetAll s).err = .none := rfl
@[simp] theorem resetAll_build (s : State) : (resetAll s).build = s.build := rfl
@[simp] theorem resetAll_ports (s : State) : (resetAll s).ports = s.ports := rfl

/-! ### A rejection writes only ERR (R172) -/

@[simp] theorem reject_lineRs (code : ErrCode) (s : State) :
    (reject code s).lineRs = s.lineRs := rfl
@[simp] theorem reject_lineE (code : ErrCode) (s : State) : (reject code s).lineE = s.lineE := rfl
@[simp] theorem reject_lineD (code : ErrCode) (s : State) : (reject code s).lineD = s.lineD := rfl
@[simp] theorem reject_phase (code : ErrCode) (s : State) : (reject code s).phase = s.phase := rfl
@[simp] theorem reject_cnt (code : ErrCode) (s : State) : (reject code s).cnt = s.cnt := rfl
@[simp] theorem reject_src (code : ErrCode) (s : State) : (reject code s).src = s.src := rfl
@[simp] theorem reject_upc (code : ErrCode) (s : State) : (reject code s).upc = s.upc := rfl
@[simp] theorem reject_hrs (code : ErrCode) (s : State) : (reject code s).hrs = s.hrs := rfl
@[simp] theorem reject_hval (code : ErrCode) (s : State) : (reject code s).hval = s.hval := rfl
@[simp] theorem reject_hlen (code : ErrCode) (s : State) : (reject code s).hlen = s.hlen := rfl
@[simp] theorem reject_ready (code : ErrCode) (s : State) : (reject code s).ready = s.ready := rfl
@[simp] theorem reject_err (code : ErrCode) (s : State) : (reject code s).err = code := rfl
@[simp] theorem reject_build (code : ErrCode) (s : State) : (reject code s).build = s.build := rfl
@[simp] theorem reject_ports (code : ErrCode) (s : State) : (reject code s).ports = s.ports := rfl

/-! ### `begin(NIB(r, v))` (R101) -/

@[simp] theorem beginNib_lineRs (r : Selector) (v : Nibble) (s : State) :
    (beginNib r v s).lineRs = r := rfl
@[simp] theorem beginNib_lineE (r : Selector) (v : Nibble) (s : State) :
    (beginNib r v s).lineE = s.lineE := rfl
@[simp] theorem beginNib_lineD (r : Selector) (v : Nibble) (s : State) :
    (beginNib r v s).lineD = v := rfl
@[simp] theorem beginNib_phase (r : Selector) (v : Nibble) (s : State) :
    (beginNib r v s).phase = .rise := rfl
@[simp] theorem beginNib_cnt (r : Selector) (v : Nibble) (s : State) :
    (beginNib r v s).cnt = s.cnt := rfl
@[simp] theorem beginNib_src (r : Selector) (v : Nibble) (s : State) :
    (beginNib r v s).src = s.src := rfl
@[simp] theorem beginNib_upc (r : Selector) (v : Nibble) (s : State) :
    (beginNib r v s).upc = s.upc := rfl
@[simp] theorem beginNib_hrs (r : Selector) (v : Nibble) (s : State) :
    (beginNib r v s).hrs = s.hrs := rfl
@[simp] theorem beginNib_hval (r : Selector) (v : Nibble) (s : State) :
    (beginNib r v s).hval = s.hval := rfl
@[simp] theorem beginNib_hlen (r : Selector) (v : Nibble) (s : State) :
    (beginNib r v s).hlen = s.hlen := rfl
@[simp] theorem beginNib_ready (r : Selector) (v : Nibble) (s : State) :
    (beginNib r v s).ready = s.ready := rfl
@[simp] theorem beginNib_err (r : Selector) (v : Nibble) (s : State) :
    (beginNib r v s).err = s.err := rfl
@[simp] theorem beginNib_build (r : Selector) (v : Nibble) (s : State) :
    (beginNib r v s).build = s.build := rfl
@[simp] theorem beginNib_ports (r : Selector) (v : Nibble) (s : State) :
    (beginNib r v s).ports = s.ports := rfl

/-! ### `begin(WAIT(P))` (R142) -/

@[simp] theorem beginWait_lineRs (p : Nat) (s : State) : (beginWait p s).lineRs = s.lineRs := rfl
@[simp] theorem beginWait_lineE (p : Nat) (s : State) : (beginWait p s).lineE = s.lineE := rfl
@[simp] theorem beginWait_lineD (p : Nat) (s : State) : (beginWait p s).lineD = s.lineD := rfl
@[simp] theorem beginWait_phase (p : Nat) (s : State) : (beginWait p s).phase = .wait := rfl
@[simp] theorem beginWait_cnt (p : Nat) (s : State) : (beginWait p s).cnt = p - 1 := rfl
@[simp] theorem beginWait_src (p : Nat) (s : State) : (beginWait p s).src = s.src := rfl
@[simp] theorem beginWait_upc (p : Nat) (s : State) : (beginWait p s).upc = s.upc := rfl
@[simp] theorem beginWait_hrs (p : Nat) (s : State) : (beginWait p s).hrs = s.hrs := rfl
@[simp] theorem beginWait_hval (p : Nat) (s : State) : (beginWait p s).hval = s.hval := rfl
@[simp] theorem beginWait_hlen (p : Nat) (s : State) : (beginWait p s).hlen = s.hlen := rfl
@[simp] theorem beginWait_ready (p : Nat) (s : State) : (beginWait p s).ready = s.ready := rfl
@[simp] theorem beginWait_err (p : Nat) (s : State) : (beginWait p s).err = s.err := rfl
@[simp] theorem beginWait_build (p : Nat) (s : State) : (beginWait p s).build = s.build := rfl
@[simp] theorem beginWait_ports (p : Nat) (s : State) : (beginWait p s).ports = s.ports := rfl

/-! ### `complete()` (R41) -/

@[simp] theorem complete_lineRs (s : State) : (complete s).lineRs = s.lineRs := rfl
@[simp] theorem complete_lineE (s : State) : (complete s).lineE = s.lineE := rfl
@[simp] theorem complete_lineD (s : State) : (complete s).lineD = s.lineD := rfl
@[simp] theorem complete_phase (s : State) : (complete s).phase = .idle := rfl
@[simp] theorem complete_cnt (s : State) : (complete s).cnt = s.cnt := rfl
@[simp] theorem complete_src (s : State) : (complete s).src = s.src := rfl
@[simp] theorem complete_upc (s : State) : (complete s).upc = s.upc := rfl
@[simp] theorem complete_hrs (s : State) : (complete s).hrs = s.hrs := rfl
@[simp] theorem complete_hval (s : State) : (complete s).hval = s.hval := rfl
@[simp] theorem complete_hlen (s : State) : (complete s).hlen = s.hlen := rfl
@[simp] theorem complete_ready (s : State) :
    (complete s).ready = if s.src = .init then true else s.ready := rfl
@[simp] theorem complete_err (s : State) : (complete s).err = s.err := rfl
@[simp] theorem complete_build (s : State) : (complete s).build = s.build := rfl
@[simp] theorem complete_ports (s : State) : (complete s).ports = s.ports := rfl

/-! ### `nib_rise()` (R102) -/

@[simp] theorem nibRise_lineRs (s : State) : (nibRise s).lineRs = s.lineRs := rfl
@[simp] theorem nibRise_lineE (s : State) : (nibRise s).lineE = true := rfl
@[simp] theorem nibRise_lineD (s : State) : (nibRise s).lineD = s.lineD := rfl
@[simp] theorem nibRise_phase (s : State) : (nibRise s).phase = .high := rfl
@[simp] theorem nibRise_cnt (s : State) : (nibRise s).cnt = s.build.nEPulse - 1 := rfl
@[simp] theorem nibRise_src (s : State) : (nibRise s).src = s.src := rfl
@[simp] theorem nibRise_upc (s : State) : (nibRise s).upc = s.upc := rfl
@[simp] theorem nibRise_hrs (s : State) : (nibRise s).hrs = s.hrs := rfl
@[simp] theorem nibRise_hval (s : State) : (nibRise s).hval = s.hval := rfl
@[simp] theorem nibRise_hlen (s : State) : (nibRise s).hlen = s.hlen := rfl
@[simp] theorem nibRise_ready (s : State) : (nibRise s).ready = s.ready := rfl
@[simp] theorem nibRise_err (s : State) : (nibRise s).err = s.err := rfl
@[simp] theorem nibRise_build (s : State) : (nibRise s).build = s.build := rfl
@[simp] theorem nibRise_ports (s : State) : (nibRise s).ports = s.ports := rfl

end Sys2Proof.Machine
end

