-- ==== Sys2Proof/Laws/Ops.lean ====
section
/-!
SUPPORT. What each shared operation of the machine can do, said once: the sequence (R42, R43), `advance`
(R40), the strobe and wait edges (R103, R143), the commands (R84), and the edge itself (R39).
-/

namespace Sys2Proof.Machine

@[simp] theorem initRom_length (P : Params) : (initRom P).length = 17 := rfl

@[simp] theorem hostSequence_length_one (r : Selector) (v : Byte) :
    (hostSequence r v .one).length = 1 := rfl

@[simp] theorem hostSequence_length_two (r : Selector) (v : Byte) :
    (hostSequence r v .two).length = 2 := rfl

/-- The sequence reads only SRC, HRS, HVAL, HLEN and the build. -/
theorem sequence_congr {s t : State} (h1 : t.src = s.src) (h2 : t.hrs = s.hrs)
    (h3 : t.hval = s.hval) (h4 : t.hlen = s.hlen) (h5 : t.build = s.build) :
    t.sequence = s.sequence := by
  simp only [State.sequence, h1, h2, h3, h4, h5]

/-- A micro-op exists at an index exactly below the sequence's length. -/
theorem seqOp_isSome_iff (s : State) (u : Nat) : (s.seqOp u).isSome ↔ u < s.seqLen := by
  simp [State.seqOp, State.seqLen]

theorem seqOp_eq_none_iff (s : State) (u : Nat) : s.seqOp u = none ↔ s.seqLen ≤ u := by
  simp [State.seqOp, State.seqLen]

theorem seqOp_some_lt {s : State} {u : Nat} {op : MicroOp} (h : s.seqOp u = some op) :
    u < s.seqLen := by
  rw [← seqOp_isSome_iff, h]; rfl

/-- Every sequence has at most 17 micro-ops. -/
theorem seqLen_le (s : State) : s.seqLen ≤ 17 := by
  simp only [State.seqLen, State.sequence]
  cases s.src with
  | init => simp
  | host => cases s.hlen <;> simp

/-- Beginning a micro-op writes only LINE_RS, LINE_D, CNT and PHASE. -/
theorem beginOp_frame (op : MicroOp) (s : State) :
    (beginOp op s).lineE = s.lineE ∧ (beginOp op s).src = s.src ∧ (beginOp op s).upc = s.upc ∧
    (beginOp op s).hrs = s.hrs ∧ (beginOp op s).hval = s.hval ∧ (beginOp op s).hlen = s.hlen ∧
    (beginOp op s).ready = s.ready ∧ (beginOp op s).err = s.err ∧
    (beginOp op s).build = s.build ∧ (beginOp op s).ports = s.ports := by
  cases op <;> simp [beginOp]

/-- What `advance` does (R40). -/
theorem advance_cases (s : State) :
    (∃ op, s.seqOp (s.upc.toNat + 1) = some op ∧
      advance s = beginOp op { s with upc := BitVec.ofNat 5 (s.upc.toNat + 1) }) ∨
    (s.seqLen ≤ s.upc.toNat + 1 ∧ advance s = complete s) := by
  unfold advance
  cases h : s.seqOp (s.upc.toNat + 1) with
  | some op => exact .inl ⟨op, rfl, rfl⟩
  | none => exact .inr ⟨(seqOp_eq_none_iff s _).1 h, rfl⟩

/-- The index `advance` stores is exact: no wrap in the five bits (R126). -/
theorem advance_upc_toNat {s : State} {op : MicroOp} (h : s.seqOp (s.upc.toNat + 1) = some op) :
    (BitVec.ofNat 5 (s.upc.toNat + 1)).toNat = s.upc.toNat + 1 := by
  have h1 := seqOp_some_lt h
  have h2 := seqLen_le s
  simp only [BitVec.toNat_ofNat]
  omega

/-- What `nib_high` does (R103). -/
theorem nibHigh_cases (s : State) :
    (s.cnt ≠ 0 ∧ nibHigh s = { s with cnt := s.cnt - 1 }) ∨
    (s.cnt = 0 ∧ s.upc.toNat + 1 < s.seqLen ∧
      nibHigh s = { s with lineE := false, phase := .next }) ∨
    (s.cnt = 0 ∧ s.seqLen ≤ s.upc.toNat + 1 ∧ nibHigh s = complete { s with lineE := false }) := by
  unfold nibHigh
  by_cases hc : s.cnt = 0
  · by_cases hu : s.upc.toNat + 1 < s.seqLen
    · exact .inr (.inl ⟨hc, hu, by simp [hc, hu]⟩)
    · exact .inr (.inr ⟨hc, by omega, by simp [hc, hu]⟩)
  · exact .inl ⟨hc, by simp [hc]⟩

/-- What `wait_step` does (R143). -/
theorem waitStep_cases (s : State) :
    (s.cnt ≠ 0 ∧ waitStep s = { s with cnt := s.cnt - 1 }) ∨
    (s.cnt = 0 ∧ waitStep s = advance s) := by
  unfold waitStep
  by_cases hc : s.cnt = 0 <;> simp [hc]

/-- What a command does at its acceptance edge (R84). -/
theorem exec_cases {i : Instr} {s t : State} (h : exec i s = .next t) :
    (i = .init ∧
      t = beginWait s.build.nPowerOn { s with src := .init, upc := 0#5, ready := false }) ∨
    (i ≠ .init ∧ s.ready = false ∧ t = reject .notReady s) ∨
    (∃ rs n, i = .nibble rs n ∧ s.ready = true ∧
      t = beginNib rs n
        { s with src := .host, hrs := rs, hval := zext8 n, hlen := .one, upc := 0#5 }) ∨
    (∃ rs b, i = .byte rs b ∧ s.ready = true ∧
      t = beginNib rs (hiNibble b)
        { s with src := .host, hrs := rs, hval := b, hlen := .two, upc := 0#5 }) := by
  cases i with
  | init => exact .inl ⟨rfl, (Host.Outcome.next.inj h).symm⟩
  | nibble rs n =>
    have h' := (Host.Outcome.next.inj h).symm
    by_cases hr : s.ready = false
    · exact .inr (.inl ⟨by simp, hr, by simpa [hr] using h'⟩)
    · exact .inr (.inr (.inl ⟨rs, n, rfl, by simpa using hr, by simpa [hr] using h'⟩))
  | byte rs b =>
    have h' := (Host.Outcome.next.inj h).symm
    by_cases hr : s.ready = false
    · exact .inr (.inl ⟨by simp, hr, by simpa [hr] using h'⟩)
    · exact .inr (.inr (.inr ⟨rs, b, rfl, by simpa using hr, by simpa [hr] using h'⟩))

/-- What one edge does (R39): a reset, or the transition of the phase before the edge. -/
theorem step_cases {s t : State} (h : step s = .next t) :
    (s.port.rst = true ∧ t = resetAll s.afterSample) ∨
    (s.port.rst = false ∧
      ((s.phase = .idle ∧ s.port.cmdValid = false ∧ t = s.afterSample) ∨
       (s.phase = .idle ∧ s.port.cmdValid = true ∧
         ((∃ i, decode s.port.cmdWord = .command i ∧ exec i s.afterSample = .next t) ∨
          (∃ why, decode s.port.cmdWord = .illegal why ∧ t = reject .illegal s.afterSample))) ∨
       (s.phase = .rise ∧ t = nibRise s.afterSample) ∨
       (s.phase = .high ∧ t = nibHigh s.afterSample) ∨
       (s.phase = .next ∧ t = advance s.afterSample) ∨
       (s.phase = .wait ∧ t = waitStep s.afterSample))) := by
  unfold step edge at h
  cases hr : s.port.rst with
  | true => exact .inl ⟨rfl, by simpa [hr, eq_comm] using h⟩
  | false =>
    refine .inr ⟨rfl, ?_⟩
    simp only [hr, Bool.false_eq_true, if_false, State.afterSample_phase] at h
    cases hp : s.phase with
    | idle =>
      simp only [hp] at h
      cases hv : s.port.cmdValid with
      | false => exact .inl ⟨rfl, rfl, by simpa [hv, eq_comm] using h⟩
      | true =>
        refine .inr (.inl ⟨rfl, rfl, ?_⟩)
        simp only [hv, if_true, accept] at h
        cases hd : decode s.port.cmdWord with
        | command i => exact .inl ⟨i, rfl, by simpa [hd] using h⟩
        | illegal why => exact .inr ⟨why, rfl, by simpa [hd, eq_comm] using h⟩
    | rise =>
      simp only [hp] at h
      exact .inr (.inr (.inl ⟨rfl, (Host.Outcome.next.inj h).symm⟩))
    | high =>
      simp only [hp] at h
      exact .inr (.inr (.inr (.inl ⟨rfl, (Host.Outcome.next.inj h).symm⟩)))
    | next =>
      simp only [hp] at h
      exact .inr (.inr (.inr (.inr (.inl ⟨rfl, (Host.Outcome.next.inj h).symm⟩))))
    | wait =>
      simp only [hp] at h
      exact .inr (.inr (.inr (.inr (.inr ⟨rfl, (Host.Outcome.next.inj h).symm⟩))))

/-- A run takes its first edge, then the rest. -/
theorem run_succ {s t : State} (k : Nat) (h : step s = .next t) : run (k + 1) s = run k t := by
  simp only [run, h]

/-- A run of `j + k` edges is a run of `j` followed by a run of `k`. -/
theorem run_add {s t : State} (j k : Nat) (h : run j s = .next t) : run (j + k) s = run k t := by
  induction j generalizing s with
  | zero => cases h; rw [Nat.zero_add]
  | succ j ih =>
    cases hs : step s with
    | next u =>
      rw [Nat.add_right_comm, run_succ _ hs]
      exact ih (by rwa [run_succ _ hs] at h)
    | fault f => simp [run, hs] at h
    | refused r => simp [run, hs] at h

end Sys2Proof.Machine
end

