-- ==== Sys2Proof/Laws/PerInstr.lean ====
section
/-!
SUPPORT. Facts about every command as syntax, one lemma per constructor of `Instr`.
-/

namespace Sys2Proof.Laws

namespace RowMatch

/-- The word of a command matches the command's own row of the opcode table: `(word & mask) == match` (R90). -/
def Statement (i : Instr) : Prop := encode i &&& rowMask i = rowMatch i

theorem init : Statement .init := by unfold Statement; decide

theorem nibble (rs : Selector) (n : Nibble) : Statement (.nibble rs n) := by
  unfold Statement; revert n; cases rs <;> decide

theorem byte (rs : Selector) (b : Byte) : Statement (.byte rs b) := by
  unfold Statement
  apply BitVec.eq_of_getLsbD_eq
  intro i hi
  have hv : i < 8 ∨ i = 8 ∨ i = 9 ∨ i = 10 ∨ i = 11 := by omega
  rcases hv with h | h | h | h | h
  · have : ∀ j < 8, (0xE00#12).getLsbD j = false ∧ (0x600#12).getLsbD j = false := by decide
    simp [rowMask, rowMatch, this i h]
  all_goals
    subst h
    simp only [encode, encodeFields, BitVec.getLsbD_and, toWord_getLsbD]
    simp [rowMask, rowMatch]

end RowMatch

end Sys2Proof.Laws
end

