-- ==== Sys2Proof/Machine/Assembler.lean ====
section
/-!
DEFINITION. The text form of the spec's assembler (R87, R89): a line of characters to an `Asm` line, and
a program of lines to its words. No rule of the machine depends on it (92_eei_decisions.md D12).
DESIGN CHOICE, safe (log 12): names are read in the letter case the spec writes them in, and blanks may
stand between any two tokens. DESIGN CHOICE, unsafe (log 18): a `;` between the quotes of a character literal
is the character, not the start of a comment.
-/

namespace Sys2Proof.Assembler

/-- The tokens of a line. -/
inductive Token where
  | word (cs : List Char)
  | comma
  | hash
  /-- a character literal `'c'` -/
  | chr (c : Char)
  deriving DecidableEq, Repr

/-- What a line holds. -/
inductive Line where
  /-- nothing but blanks and a comment -/
  | blank
  | command (a : Asm)
  | malformed
  deriving DecidableEq, Repr

/-- The word read so far, if any, put before the tokens that follow it. -/
def flush (acc : List Char) (ts : List Token) : List Token :=
  if acc = [] then ts else .word acc.reverse :: ts

/-- The tokens of a line; `;` starts a comment (R87). `acc` is the word being read, last character first.
DESIGN CHOICE, unsafe (log 18): R87 does not say which reading holds where `;` stands between the quotes of a
character literal; the literal is read, as it is for every other character between two quotes. -/
def lex (acc : List Char) : List Char → Option (List Token)
  | [] => some (flush acc [])
  | ';' :: _ => some (flush acc [])
  | ',' :: cs => (lex [] cs).map fun ts => flush acc (.comma :: ts)
  | '#' :: cs => (lex [] cs).map fun ts => flush acc (.hash :: ts)
  | '\'' :: c :: '\'' :: cs => (lex [] cs).map fun ts => flush acc (.chr c :: ts)
  | c :: cs =>
    if c.isWhitespace then (lex [] cs).map (flush acc)
    else if c.isAlphanum || c == '_' then lex (c :: acc) cs
    else none

/-- The value of a digit in base 16; a decimal numeral refuses the letters. -/
def digit (base : Nat) (c : Char) : Option Nat :=
  let v := if c.isDigit then c.toNat - '0'.toNat
    else if 'a' ≤ c ∧ c ≤ 'f' then c.toNat - 'a'.toNat + 10
    else if 'A' ≤ c ∧ c ≤ 'F' then c.toNat - 'A'.toNat + 10
    else base
  if v < base then some v else none

/-- The digits of a numeral, most significant first, after `acc`. -/
def digits (base acc : Nat) : List Char → Option Nat
  | [] => some acc
  | c :: cs =>
    match digit base c with
    | some v => digits base (acc * base + v) cs
    | none => none

/-- A number in decimal or `0x` hexadecimal (R87). -/
def number : List Char → Option Nat
  | [] => none
  | '0' :: 'x' :: c :: cs => digits 16 0 (c :: cs)
  | c :: cs => digits 10 0 (c :: cs)

/-- A number after `#`: `<imm4>`, or the `a` of `SETDD`. -/
def imm : List Token → Option Nat
  | [.hash, .word cs] => number cs
  | _ => none

/-- `#<imm8>`: a number, or a character literal meaning the character's ASCII code (R87). -/
def imm8 : List Token → Option Nat
  | [.hash, .chr c] => if c.toNat < 128 then some c.toNat else none
  | ts => imm ts

/-- `<sel>`: `CMD` or `DATA` (R87). -/
def selector (cs : List Char) : Option Selector :=
  if cs = "CMD".toList then some .command else if cs = "DATA".toList then some .data else none

/-- A line's command from its tokens (R87, R89). -/
def command : List Token → Option Asm
  | [.word m] =>
    if m = "INIT".toList then some .init
    else if m = "FSET_4B_2L".toList then some .fset4b2l
    else if m = "CLEAR".toList then some .clear
    else if m = "DISP_ON".toList then some .dispOn
    else if m = "ROW1".toList then some .row1
    else if m = "ROW2".toList then some .row2
    else none
  | .word m :: .word sel :: .comma :: rest =>
    if m = "NIBBLE".toList then
      (selector sel).bind fun r => (imm rest).map fun n => .nibble r n
    else if m = "BYTE".toList then
      (selector sel).bind fun r => (imm8 rest).map fun b => .byte r b
    else none
  | .word m :: rest =>
    if m = "SETDD".toList then (imm rest).map .setdd
    else if m = "PUTC".toList then (imm8 rest).map .putc
    else none
  | _ => none

/-- A line of text (R87). -/
def line (cs : List Char) : Line :=
  match lex [] cs with
  | none => .malformed
  | some [] => .blank
  | some (t :: ts) =>
    match command (t :: ts) with
    | some a => .command a
    | none => .malformed

/-- The words of a program, one command a line (R87); `none` where the assembler refuses a line. -/
def program : List (List Char) → Option (List CmdWord)
  | [] => some []
  | cs :: rest =>
    match line cs with
    | .malformed => none
    | .blank => program rest
    | .command a => a.assemble.bind fun w => (program rest).map (w :: ·)

end Sys2Proof.Assembler
end

