-- ==== Sys2Proof/Tests/Slice0.lean ====
section
/-!
SUPPORT. Small tests of the model against the spec's own words, tables and vectors (95_test_vectors.md), and
for each statement of Certificates/Slice0/Obligations.lean with hypotheses a witness that meets them.
-/

namespace Sys2Proof.Tests

open Sys2Proof Sys2Proof.Machine

/-! ### Well-formedness: each check refuses an ill-formed term (R86, R87, R89) -/

theorem test_reserved_opcode_is_ill_formed :
    (CmdFields.mk 0b100#3 .command 0#8).wellFormed = false := by decide
theorem test_init_with_rs_set_is_ill_formed :
    (CmdFields.mk 0b001#3 .data 0#8).wellFormed = false := by decide
theorem test_init_with_value_set_is_ill_formed :
    (CmdFields.mk 0b001#3 .command 1#8).wellFormed = false := by decide
theorem test_nibble_with_high_half_set_is_ill_formed :
    (CmdFields.mk 0b010#3 .command 0x10#8).wellFormed = false := by decide
theorem test_nibble_fields_are_well_formed :
    (CmdFields.mk 0b010#3 .data 0x0F#8).wellFormed = true := by decide
theorem test_imm4_of_16_is_ill_formed : (Asm.nibble .command 16).wellFormed = false := by decide
theorem test_imm8_of_256_is_ill_formed : (Asm.byte .data 256).wellFormed = false := by decide
theorem test_putc_of_256_is_ill_formed : (Asm.putc 256).wellFormed = false := by decide
theorem test_setdd_of_80h_is_ill_formed : (Asm.setdd 0x80).wellFormed = false := by decide

/-! ### Decoding: words written out field by field from R80 and R81 -/

theorem test_decode_init : decode 0b001_0_0000_0000#12 = .command .init := by decide
theorem test_decode_nibble_cmd :
    decode 0b010_0_0000_0011#12 = .command (.nibble .command 0x3#4) := by decide
theorem test_decode_nibble_data :
    decode 0b010_1_0000_1111#12 = .command (.nibble .data 0xF#4) := by decide
theorem test_decode_byte_data :
    decode 0b011_1_0100_1000#12 = .command (.byte .data 0x48#8) := by decide
theorem test_decode_byte_cmd :
    decode 0b011_0_1000_0000#12 = .command (.byte .command 0x80#8) := by decide
theorem test_decode_init_with_rs : decode 0b001_1_0000_0000#12 = .illegal .initOperandSet := by decide
theorem test_decode_nibble_high_half :
    decode 0b010_0_1111_0000#12 = .illegal .nibbleHighSet := by decide
theorem test_decode_reserved_low : decode 0x1FF#12 = .illegal .reservedOpcode := by decide
theorem test_decode_reserved_high : decode 0x8FF#12 = .illegal .reservedOpcode := by decide
theorem test_encode_putc_H : encode (.byte .data 0x48#8) = 0x748#12 := by decide
theorem test_table_word : decodeTableWord 16 0x50F = some (.nibble .data 0xF#4) := by decide
theorem test_table_word_beyond_twelve_bits : decodeTableWord 16 0x1200 = none := by decide

/-! ### The assembler's text (R87, R89; program P1 of 95_test_vectors.md §4) -/

theorem test_line_putc_literal :
    Assembler.line "        PUTC #'H'            ; BYTE DATA, #0x48".toList = .command (.putc 0x48) := by
  decide
/-- The model's own choice, log 18: R87 leaves it open. -/
theorem test_line_semicolon_literal :
    Assembler.line "PUTC #';' ; a comment".toList = .command (.putc 0x3B) := by decide
theorem test_line_nibble :
    Assembler.line "NIBBLE CMD, #3".toList = .command (.nibble .command 3) := by decide
theorem test_line_comment : Assembler.line "  ; nothing".toList = .blank := by decide
theorem test_line_unknown_name : Assembler.line "WAIT #3".toList = .malformed := by decide
theorem test_program_words :
    Assembler.program ["INIT ; 0x200".toList, "ROW1".toList, "BYTE DATA, #0x69".toList] =
      some [0x200#12, 0x680#12, 0x769#12] := by decide
theorem test_program_refused : Assembler.program ["SETDD #0x80".toList] = none := by decide

/-! ### States to test from: configuration TOY (R8), from the reset state -/

/-- The state an outcome goes on to. -/
def nextOf : Host.Outcome State Fault Refusal → Option State
  | .next s => some s
  | .fault _ => none
  | .refused _ => none

/-- S_RST of 95_test_vectors.md in configuration TOY. -/
def rstS : State := { State.reset with build := Params.toy 3000000 }

/-- S_RDY of 95_test_vectors.md in configuration TOY. -/
def rdyS : State := { rstS with ready := true }

/-- A state that is offered the word `w`. -/
def offering (s : State) (w : CmdWord) : State := { s with ports := [.offer w] }

/-- Vector B-1 after edge 0: the high nibble of 0x748 is set up. -/
def byteRise : State :=
  { rdyS with lineRs := .data, lineD := 0x4#4, phase := .rise, hrs := .data, hval := 0x48#8,
              hlen := .two }

/-- Vector B-1 after edge 2: the last high period of the first nibble. -/
def byteHigh : State := { byteRise with lineE := true, phase := .high, cnt := 0 }

/-- Vector B-1 after edge 3. -/
def byteNext : State := { byteRise with phase := .next, cnt := 0 }

/-- Vector B-1 after edge 6: the last high period of the last nibble. -/
def byteLast : State := { byteHigh with lineD := 0x8#4, upc := 1#5 }

/-- Vector I-1 after edge `4 - c`: CNT is `c`. -/
def initWait (c : Nat) : State := { rstS with phase := .wait, src := .init, cnt := c }

/-- Vector I-1 after edge 8: the first nibble was latched; a wait comes next. -/
def initNext : State :=
  { rstS with phase := .next, src := .init, upc := 1#5, lineD := 0x3#4 }

/-- Vector I-1 after edge 62: the last high period of the last nibble. -/
def initLast : State :=
  { rstS with lineE := true, lineD := 0xC#4, phase := .high, src := .init, upc := 16#5 }

/-! ### One edge at a time -/

/-- Vector N-1, edge 0. -/
theorem test_nibble_accepted :
    (nextOf (step (offering rdyS 0x403#12))).map (fun t => (t.phase, t.lineD, t.hval, t.hlen)) =
      some (.rise, 0x3#4, 0x03#8, .one) := by decide
/-- Vector REJ-1. -/
theorem test_nibble_not_ready :
    (nextOf (step (offering rstS 0x403#12))).map (fun t => (t.phase, t.err, t.status)) =
      some (.idle, .notReady, 0b1000#4) := by decide
/-- Vector B-1, edge 0. -/
theorem test_byte_accepted :
    nextOf (step (offering rdyS 0x748#12)) = some { byteRise with ports := [] } := by decide
/-- Vector B-1, edge 4: the low nibble follows. -/
theorem test_byte_low_nibble :
    (nextOf (step byteNext)).map (fun t => (t.phase, t.upc, t.lineRs, t.lineD)) =
      some (.rise, 1#5, .data, 0x8#4) := by decide
/-- Vector I-1, edge 0. -/
theorem test_init_accepted :
    (nextOf (step (offering rdyS 0x200#12))).map (fun t => (t.phase, t.cnt, t.ready, t.status)) =
      some (.wait, 4, false, 0b0010#4) := by decide
/-- Vector I-1, edge 63. -/
theorem test_init_ends_ready :
    (nextOf (step initLast)).map (fun t => (t.phase, t.ready, t.status)) =
      some (.idle, true, 0b0001#4) := by decide
/-- Vector I-1, edge 1: E rises with CNT at N - 1. -/
theorem test_rise :
    (nextOf (step byteRise)).map (fun t => (t.phase, t.lineE, t.cnt)) = some (.high, true, 1) := by
  decide
/-- Vector I-1, edge 5: the first nibble begins at the last edge of the wait. -/
theorem test_wait_ends_in_nibble :
    (nextOf (step (initWait 0))).map (fun t => (t.phase, t.upc, t.lineD)) =
      some (.rise, 1#5, 0x3#4) := by decide
/-- Vector I-1, edge 9. -/
theorem test_next_begins_wait :
    (nextOf (step initNext)).map (fun t => (t.phase, t.cnt, t.upc)) = some (.wait, 2, 2#5) := by
  decide
/-- Vector RST-4: at the edge where E would fall, a reset wins, and the fall is no latch event (R45). -/
theorem test_reset_wins_over_the_fall :
    (nextOf (step { byteHigh with ports := [.reset] })).map
      (fun t => (t.phase, t.lineE, t.lineRs, t.ready, latchAt 3 { byteHigh with ports := [.reset] } t)) =
      some (.idle, false, .command, false, none) := by decide
/-- Vector REJ-5: ILLEGAL is tested before NOT_READY. -/
theorem test_ill_formed_nibble_is_illegal :
    (nextOf (step (offering rstS 0x410#12))).map (fun t => t.err) = some .illegal := by decide
/-- Vector I-6: an offer while INIT runs is held off, not rejected. -/
theorem test_offer_while_busy :
    (nextOf (step (offering (initWait 3) 0x748#12))).map (fun t => (t.err, t.cnt)) =
      some (.none, 2) := by decide

/-! ### Witnesses: the hypotheses of each statement can be met together -/

theorem rdyS_inv : rdyS.Inv :=
  ⟨by decide, by decide, by decide, by decide, fun h => absurd h (by decide), by decide, by decide,
    by decide, by decide⟩

theorem byteHigh_inv : byteHigh.Inv :=
  ⟨by decide, by decide, by decide, by decide, fun h => absurd h (by decide), by decide, by decide,
    by decide, by decide⟩

theorem initWait_inv : (initWait 4).Inv :=
  ⟨by decide, by decide, by decide, by decide, fun _ => ⟨5, by decide, by decide⟩, by decide,
    by decide, by decide, by decide⟩

theorem byteHigh_carries : byteHigh.LinesCarryOp := by decide

theorem witness_EncodeOfDecodedWordIsTheWord : decode 0x748#12 = .command (.byte .data 0x48#8) := by
  decide

/-- The ends of both immediate ranges. -/
theorem witness_CommandWordsAreTheAssemblersFormulas : 0 ≤ 15 ∧ 15 ≤ 15 ∧ 0 ≤ 255 ∧ 255 ≤ 255 := by
  decide

theorem witness_PseudoInstructionsAreTheirBytes : 0x7F ≤ 0x7F ∧ 0x7F < 0x80 ∧ 255 ≤ 255 := by decide

theorem witness_StepRunsTheDecodedCommand :
    (offering rstS 0x200#12).phase = .idle ∧ (offering rstS 0x200#12).port.rst = false ∧
    (offering rstS 0x200#12).port.cmdValid = true ∧
    decode (offering rstS 0x200#12).port.cmdWord = .command .init := by decide

theorem witness_PlacedWordRunsAtTheNextStep :
    decodeTableWord 12 0x7FF = some (.byte .data 0xFF#8) := by decide

theorem witness_OfferIsTakenExactlyInIdleWithoutReset_taken :
    (offering rdyS 0x403#12).Offers 0x403#12 ∧ (offering rdyS 0x403#12).phase = .idle := by decide
theorem witness_OfferIsTakenExactlyInIdleWithoutReset_reset :
    PortInput.reset.rst = { PortInput.reset with cmdValid := true }.rst ∧ PortInput.reset.rst = true := by
  decide
theorem witness_OfferIsTakenExactlyInIdleWithoutReset_busy :
    PortInput.quiet.rst = (PortInput.offer 0x748#12).rst ∧ (initWait 3).phase ≠ .idle := by decide

theorem witness_NibbleIsLatchedAndSetUp : rdyS.ready = true := by decide
theorem witness_ByteIsLatchedAndItsHighNibbleSetUp : rdyS.ready = true := by decide

theorem witness_InitFrame : ∃ t, exec .init rdyS = .next t := ⟨_, rfl⟩

theorem witness_NibbleAndByteFrame_nibble :
    ∃ t, exec (.nibble .data 15#4) rdyS = .next t ∧ rdyS.ready = true := ⟨_, rfl, rfl⟩
theorem witness_NibbleAndByteFrame_byte :
    ∃ t, exec (.byte .command 0x28#8) rstS = .next t ∧ rstS.ready = false := ⟨_, rfl, rfl⟩

theorem witness_RejectionWritesOnlyErr_illegal :
    (offering rdyS 0xE00#12).Offers 0xE00#12 ∧ (offering rdyS 0xE00#12).phase = .idle ∧
    IllegalWord 0xE00#12 := by decide
theorem witness_RejectionWritesOnlyErr_notReady :
    (offering rstS 0x648#12).Offers 0x648#12 ∧ (offering rstS 0x648#12).phase = .idle ∧
    decode 0x648#12 = .command (.byte .command 0x48#8) ∧
    Instr.byte .command 0x48#8 ≠ .init ∧ (offering rstS 0x648#12).ready = false := by decide
theorem witness_RejectionWritesOnlyErr_init :
    (offering rstS 0x200#12).Offers 0x200#12 ∧ (offering rstS 0x200#12).phase = .idle ∧
    decode 0x200#12 = .command .init := by decide

theorem witness_SequenceLengthsAndHostNibbles :
    (initWait 4).src = .init ∧ rdyS.src = .host ∧ rdyS.hlen = .one ∧ byteRise.src = .host ∧
    byteRise.hlen = .two := by decide
theorem witness_InitRomHoldsTheTable : (initWait 4).src = .init := by decide

theorem witness_StrobeEdgesRaiseHoldAndDropE_rise :
    byteRise.port.rst = false ∧ byteRise.phase = .rise := by decide
theorem witness_StrobeEdgesRaiseHoldAndDropE_hold :
    { byteHigh with cnt := 1 }.port.rst = false ∧ { byteHigh with cnt := 1 }.phase = .high ∧
    { byteHigh with cnt := 1 }.cnt ≠ 0 := by decide
theorem witness_StrobeEdgesRaiseHoldAndDropE_more :
    byteHigh.port.rst = false ∧ byteHigh.phase = .high ∧ byteHigh.cnt = 0 ∧
    byteHigh.upc.toNat + 1 < byteHigh.seqLen := by decide
theorem witness_StrobeEdgesRaiseHoldAndDropE_initEnds :
    initLast.port.rst = false ∧ initLast.phase = .high ∧ initLast.cnt = 0 ∧
    initLast.seqLen ≤ initLast.upc.toNat + 1 ∧ initLast.src = .init := by decide
theorem witness_StrobeEdgesRaiseHoldAndDropE_hostEnds :
    byteLast.port.rst = false ∧ byteLast.phase = .high ∧ byteLast.cnt = 0 ∧
    byteLast.seqLen ≤ byteLast.upc.toNat + 1 ∧ byteLast.src = .host := by decide

theorem witness_WaitRunsDownAndTheNextMicroOpBegins_counting :
    (initWait 1).port.rst = false ∧ (initWait 1).phase = .wait ∧ (initWait 1).cnt ≠ 0 := by decide
theorem witness_WaitRunsDownAndTheNextMicroOpBegins_nibble :
    (initWait 0).port.rst = false ∧ (initWait 0).phase = .wait ∧ (initWait 0).cnt = 0 ∧
    (initWait 0).seqOp ((initWait 0).upc.toNat + 1) = some (.nib .command 0x3#4) := by decide
theorem witness_WaitRunsDownAndTheNextMicroOpBegins_wait :
    initNext.port.rst = false ∧ initNext.phase = .next ∧
    initNext.seqOp (initNext.upc.toNat + 1) = some (.wait 3) := by decide
theorem witness_WaitRunsDownAndTheNextMicroOpBegins_initEnds :
    { initNext with upc := 16#5 }.port.rst = false ∧ { initNext with upc := 16#5 }.phase = .next ∧
    { initNext with upc := 16#5 }.seqLen ≤ { initNext with upc := 16#5 }.upc.toNat + 1 ∧
    initNext.src = .init := by decide
theorem witness_WaitRunsDownAndTheNextMicroOpBegins_hostEnds :
    { byteNext with upc := 1#5 }.port.rst = false ∧ { byteNext with upc := 1#5 }.phase = .next ∧
    { byteNext with upc := 1#5 }.seqLen ≤ { byteNext with upc := 1#5 }.upc.toNat + 1 ∧
    byteNext.src = .host := by decide

/-- A machine in mid-strobe that is reset for two edges with a command offered (vector RST-2). -/
def resetting : State :=
  { byteHigh with ports := [{ PortInput.offer 0x200#12 with rst := true }, .reset] }

theorem witness_ResetEdgesSetEveryRegister :
    1 ≤ 2 ∧ 2 ≤ resetting.ports.length ∧ ∀ p ∈ resetting.ports.take 2, p.rst = true := by decide
theorem witness_NothingBeforeAResetShowsAfterIt :
    resetting.build = { rstS with ports := resetting.ports }.build ∧
    resetting.ports = { rstS with ports := resetting.ports }.ports ∧ resetting.port.rst = true := by
  decide

/-- For the statements about every edge, `step s = .next t`. -/
theorem witness_step_answers_next : ∃ t, step byteHigh = .next t := ⟨_, rfl⟩

theorem witness_UpcIsSetAtAcceptanceAndAdvancedByOne :
    byteHigh.Inv ∧ byteHigh.phase ≠ .idle ∧ byteHigh.src = .host ∧
    (initWait 4).Inv ∧ (initWait 4).phase ≠ .idle ∧ (initWait 4).src = .init :=
  ⟨byteHigh_inv, by decide, by decide, initWait_inv, by decide, by decide⟩
theorem witness_CntIsOnlyLoadedOrDecremented :
    (initWait 4).Inv ∧ ∃ t, step (initWait 4) = .next t := ⟨initWait_inv, _, rfl⟩
/-- Each arm of the chain is reached: reset, rise, INIT starting, WAIT(3) beginning, a nibble beginning, counting,
and CNT left alone. -/
theorem witness_CntIsOnlyLoadedOrDecremented_arms :
    resetting.port.rst = true ∧ byteRise.phase = .rise ∧
    (offering rstS 0x200#12).started = some .init ∧
    (initNext.phase = .next ∧ initNext.seqOp (initNext.upc.toNat + 1) = some (.wait 3)) ∧
    ((initWait 0).phase = .wait ∧ (initWait 0).cnt = 0 ∧
      (initWait 0).seqOp ((initWait 0).upc.toNat + 1) = some (.nib .command 0x3#4)) ∧
    ((initWait 1).phase = .wait ∧ (initWait 1).cnt ≠ 0) ∧
    (byteHigh.phase = .high ∧ byteHigh.cnt = 0) := by decide

theorem witness_RsAndDChangeOnlyWhereANibbleBegins :
    (offering rdyS 0x403#12).Inv ∧ ∃ t, step (offering rdyS 0x403#12) = .next t ∧
      (t.lineRs ≠ (offering rdyS 0x403#12).lineRs ∨ t.lineD ≠ (offering rdyS 0x403#12).lineD) :=
  ⟨⟨by decide, by decide, by decide, by decide, fun h => absurd h (by decide), by decide, by decide,
    by decide, by decide⟩, _, rfl, by decide⟩

theorem witness_IdleWithoutOfferKeepsEveryRegister :
    rdyS.phase = .idle ∧ { rdyS with ports := [.quiet, .quiet] }.QuietFor 3 := by decide

theorem witness_HiddenRegistersOfAnIdleMachineDoNotShow :
    { rdyS with hval := 0x69#8, cnt := 3, src := .init }.phase = .idle ∧ rdyS.phase = .idle ∧
    { rdyS with hval := 0x69#8, cnt := 3, src := .init }.outputs = rdyS.outputs ∧
    { rdyS with hval := 0x69#8, cnt := 3, src := .init }.build = rdyS.build ∧
    { rdyS with hval := 0x69#8, cnt := 3, src := .init }.ports = rdyS.ports := by decide

theorem witness_EveryEdgeKeepsTheInvariant : byteHigh.Inv ∧ ∃ t, step byteHigh = .next t :=
  ⟨byteHigh_inv, _, rfl⟩
theorem witness_EveryEdgeKeepsTheLinesOnTheCurrentNibble :
    byteHigh.LinesCarryOp ∧ byteHigh.phase = .high ∧ ∃ t, step byteHigh = .next t :=
  ⟨byteHigh_carries, rfl, _, rfl⟩
theorem witness_StatesReachableFromResetMeetTheInvariant :
    (offering rstS 0x200#12).AtReset ∧ (offering rstS 0x200#12).build.CntWide ∧
    ∃ t, run 1 (offering rstS 0x200#12) = .next t ∧ t.phase = .wait := ⟨by decide, by decide, _, rfl, rfl⟩

theorem witness_LatchEventsAndTruncatedStrobesAreApart_latch :
    byteHigh.Inv ∧ ∃ t, step byteHigh = .next t ∧
      latchAt 3 byteHigh t = some { edge := 3, rs := .data, d := 0x4#4 } :=
  ⟨byteHigh_inv, _, rfl, by decide⟩
theorem witness_LatchEventsAndTruncatedStrobesAreApart_truncated :
    resetting.Inv ∧ resetting.truncatesStrobe = true ∧ ∃ t, step resetting = .next t :=
  ⟨⟨by decide, by decide, by decide, by decide, fun h => absurd h (by decide), by decide, by decide,
    by decide, by decide⟩, by decide, _, rfl⟩

theorem byteRise_inv : byteRise.Inv :=
  ⟨by decide, by decide, by decide, by decide, fun h => absurd h (by decide), by decide, by decide,
    by decide, by decide⟩
theorem witness_EnablePulseIsExactlyNPeriods :
    byteRise.Inv ∧ byteRise.phase = .rise ∧ 1 ≤ byteRise.build.nEPulse ∧
    byteRise.NoReset (byteRise.build.nEPulse + 1) ∧ 1 ≤ 2 ∧ 2 ≤ byteRise.build.nEPulse :=
  ⟨byteRise_inv, by decide⟩

theorem witness_NibbleRunsInNPlusTwoEdges :
    (offering rdyS 0x50F#12).phase = .idle ∧ (offering rdyS 0x50F#12).lineE = false ∧
    (offering rdyS 0x50F#12).ready = true ∧ 1 ≤ (offering rdyS 0x50F#12).build.nEPulse ∧
    (offering rdyS 0x50F#12).Offers (encode (.nibble .data 0xF#4)) ∧
    (offering rdyS 0x50F#12).NoReset ((offering rdyS 0x50F#12).build.nEPulse + 2) := by decide
theorem witness_ByteRunsInTwoNPlusFourEdges :
    (offering rdyS 0x748#12).phase = .idle ∧ (offering rdyS 0x748#12).lineE = false ∧
    (offering rdyS 0x748#12).ready = true ∧ 1 ≤ (offering rdyS 0x748#12).build.nEPulse ∧
    (offering rdyS 0x748#12).Offers (encode (.byte .data 0x48#8)) ∧
    (offering rdyS 0x748#12).NoReset (2 * (offering rdyS 0x748#12).build.nEPulse + 4) := by decide
theorem witness_InitRunsItsTenNibbles :
    (offering rstS 0x200#12).phase = .idle ∧ (offering rstS 0x200#12).lineE = false ∧
    (offering rstS 0x200#12).build.CountsPositive ∧ (offering rstS 0x200#12).Offers 0x200#12 ∧
    (offering rstS 0x200#12).NoReset (dInit (offering rstS 0x200#12).build) := by decide

theorem witness_LatchStreamIsTheAcceptedCommandsNibbles :
    byteHigh.Inv ∧ byteHigh.LinesCarryOp ∧ byteHigh.NoReset 1 ∧ ∃ t, run 1 byteHigh = .next t :=
  ⟨byteHigh_inv, byteHigh_carries, by decide, _, rfl⟩
theorem witness_LatchStreamIsTheAcceptedCommandsNibbles_accepting :
    (offering rdyS 0x748#12).Inv ∧ (offering rdyS 0x748#12).LinesCarryOp ∧
    (offering rdyS 0x748#12).NoReset 0 ∧
    run 0 (offering rdyS 0x748#12) = .next (offering rdyS 0x748#12) ∧
    (offering rdyS 0x748#12).accepted.isSome = true :=
  ⟨⟨by decide, by decide, by decide, by decide, fun h => absurd h (by decide), by decide, by decide,
    by decide, by decide⟩, by decide, by decide, rfl, by decide⟩
theorem witness_EveryCommandReturnsToIdle :
    byteHigh.Inv ∧ byteHigh.LinesCarryOp ∧ byteHigh.build.CountsPositive ∧
    byteHigh.NoReset (dInit byteHigh.build) :=
  ⟨byteHigh_inv, byteHigh_carries, by decide, by decide⟩

theorem witness_AdmissibleCountsLastTheSourceMinima :
    Params.ref.Admissible { setupNs := 60, holdNs := 10 } := by decide
theorem witness_ReferenceAndToyConfigurations : 1 ≤ 3000000 := by decide

end Sys2Proof.Tests
end

section
/-!
PROOFS. One edge as a function of the state (R39): it always answers, and leaves the build and the coming
inputs alone. The shared operations' `build` and `ports` lemmas stand here beside those of Laws/State.lean.
-/

namespace Sys2Proof.Machine

/-! ### The build and the coming inputs through each operation -/

@[simp] theorem beginOp_build (op : MicroOp) (s : State) : (beginOp op s).build = s.build := by
  cases op <;> rfl

@[simp] theorem beginOp_ports (op : MicroOp) (s : State) : (beginOp op s).ports = s.ports := by
  cases op <;> rfl

@[simp] theorem advance_build (s : State) : (advance s).build = s.build := by
  obtain ⟨op, -, h⟩ | ⟨-, h⟩ := advance_cases s <;> simp [h]

@[simp] theorem advance_ports (s : State) : (advance s).ports = s.ports := by
  obtain ⟨op, -, h⟩ | ⟨-, h⟩ := advance_cases s <;> simp [h]

@[simp] theorem nibHigh_build (s : State) : (nibHigh s).build = s.build := by
  obtain ⟨-, h⟩ | ⟨-, -, h⟩ | ⟨-, -, h⟩ := nibHigh_cases s <;> simp [h]

@[simp] theorem nibHigh_ports (s : State) : (nibHigh s).ports = s.ports := by
  obtain ⟨-, h⟩ | ⟨-, -, h⟩ | ⟨-, -, h⟩ := nibHigh_cases s <;> simp [h]

@[simp] theorem waitStep_build (s : State) : (waitStep s).build = s.build := by
  obtain ⟨-, h⟩ | ⟨-, h⟩ := waitStep_cases s <;> simp [h]

@[simp] theorem waitStep_ports (s : State) : (waitStep s).ports = s.ports := by
  obtain ⟨-, h⟩ | ⟨-, h⟩ := waitStep_cases s <;> simp [h]

theorem exec_build_ports {i : Instr} {s t : State} (h : exec i s = .next t) :
    t.build = s.build ∧ t.ports = s.ports := by
  obtain ⟨-, rfl⟩ | ⟨-, -, rfl⟩ | ⟨rs, n, -, -, rfl⟩ | ⟨rs, b, -, -, rfl⟩ := exec_cases h <;> simp

/-- No step changes the build, and each uses up one edge's inputs (R7; log 1). -/
theorem step_build_ports {s t : State} (h : step s = .next t) :
    t.build = s.build ∧ t.ports = s.ports.tail := by
  obtain ⟨-, rfl⟩ | ⟨-, hphase⟩ := step_cases h
  · simp
  obtain ⟨-, -, rfl⟩ | ⟨-, -, ⟨i, -, hexec⟩ | ⟨why, -, rfl⟩⟩ | ⟨-, rfl⟩ | ⟨-, rfl⟩ | ⟨-, rfl⟩ |
    ⟨-, rfl⟩ := hphase
  · simp
  · exact exec_build_ports hexec
  all_goals simp

/-! ### No edge faults or is refused -/

theorem exec_isNext (i : Instr) (s : State) : ∃ t, exec i s = .next t := by
  cases i <;> exact ⟨_, rfl⟩

theorem accept_isNext (w : CmdWord) (s : State) : ∃ t, accept w s = .next t := by
  unfold accept
  cases decode w with
  | command i => exact exec_isNext i s
  | illegal why => exact ⟨_, rfl⟩

theorem edge_isNext (p : PortInput) (s : State) : ∃ t, edge p s = .next t := by
  unfold edge
  by_cases hrst : p.rst = true
  · exact ⟨_, if_pos hrst⟩
  rw [if_neg hrst]
  cases s.phase with
  | idle =>
    by_cases hvalid : p.cmdValid = true
    · simpa only [hvalid, if_true] using accept_isNext p.cmdWord s
    · exact ⟨_, if_neg hvalid⟩
  | rise => exact ⟨_, rfl⟩
  | high => exact ⟨_, rfl⟩
  | next => exact ⟨_, rfl⟩
  | wait => exact ⟨_, rfl⟩

theorem step_isNext (s : State) : ∃ t, step s = .next t := edge_isNext _ _

/-- Settles O35: the edge answers whatever its inputs are, and every operation it can run keeps the build
and takes no further input. -/
theorem everyEdgeGoesOnAndKeepsTheBuild : Obligations.EveryEdgeGoesOnAndKeepsTheBuild := by
  intro s
  obtain ⟨t, h⟩ := step_isNext s
  exact ⟨t, h, step_build_ports h⟩

end Sys2Proof.Machine
end

section
/-!
PROOFS. The parameter bounds of R7 as plain inequalities: a count of at least `max(1, ceil(ns / tick))`
ticks is a positive count that lasts `ns` nanoseconds, and the `CNT_W` row is a lower bound on `CNT_W`.
-/

namespace Sys2Proof

/-- The constraint column of R7: `n` ticks reach the bound exactly if there is one and they last `ns`. -/
theorem minTicks_le_iff {ns tick n : Nat} (htick : 1 ≤ tick) :
    minTicks ns tick ≤ n ↔ 1 ≤ n ∧ ns ≤ n * tick := by
  have hceil : (ns + tick - 1) / tick ≤ n ↔ ns ≤ n * tick := by
    rw [Nat.div_le_iff_le_mul_add_pred htick, Nat.mul_comm]
    omega
  rw [minTicks, Nat.max_le, hceil]

namespace Params

theorem meetsMinima_iff {P : Params} (htick : 1 ≤ P.tTickNs) :
    P.MeetsMinima ↔ P.CountsPositive ∧
      40000 ≤ P.nEPulse * P.tTickNs ∧ 15000000 ≤ P.nPowerOn * P.tTickNs ∧
      5000000 ≤ P.nWait5ms * P.tTickNs ∧ 100000 ≤ P.nWait100us * P.tTickNs ∧
      2000000 ≤ P.nWait2ms * P.tTickNs := by
  simp only [MeetsMinima, CountsPositive, minTicks_le_iff htick]
  tauto

/-- `minCntW` is the smallest width of the `CNT_W` row of R7. -/
theorem cntWide_iff_minCntW_le (P : Params) : P.CntWide ↔ P.minCntW ≤ P.cntW := by
  unfold CntWide minCntW
  rcases Nat.eq_zero_or_pos (P.maxCount - 1) with hzero | hpos
  · simp [hzero]
  · rw [← Nat.log2_lt hpos.ne']
    omega

theorem tickCovers_iff_max_le (P : Params) (lcd : LcdTiming) :
    P.TickCovers lcd ↔ max 1 (max lcd.setupNs lcd.holdNs) ≤ P.tTickNs := by
  simp only [TickCovers, Nat.max_le]

/-- The build `m` above the bounds of R7, field by field: each bound is read off the build itself. -/
theorem eq_ofMargins_iff (P : Params) (lcd : LcdTiming) (m : Margins) :
    P = ofMargins lcd m ↔
      P.tTickNs = max 1 (max lcd.setupNs lcd.holdNs) + m.tick ∧
      P.nEPulse = minTicks 40000 P.tTickNs + m.ePulse ∧
      P.nPowerOn = minTicks 15000000 P.tTickNs + m.powerOn ∧
      P.nWait5ms = minTicks 5000000 P.tTickNs + m.wait5ms ∧
      P.nWait100us = minTicks 100000 P.tTickNs + m.wait100us ∧
      P.nWait2ms = minTicks 2000000 P.tTickNs + m.wait2ms ∧
      P.cntW = P.minCntW + m.cntW := by
  constructor
  · rintro rfl
    exact ⟨rfl, rfl, rfl, rfl, rfl, rfl, rfl⟩
  · obtain ⟨tick, ePulse, powerOn, wait5ms, wait100us, wait2ms, cntW⟩ := P
    simp only [minCntW, maxCount, ofMargins]
    rintro ⟨rfl, rfl, rfl, rfl, rfl, rfl, rfl⟩
    rfl

/-- Settles O50: at a tick of at least 1 ns each bound of R7 is the minimum duration itself. -/
theorem admissibleCountsLastTheSourceMinima : Obligations.AdmissibleCountsLastTheSourceMinima := by
  rintro P lcd ⟨⟨htick, hsetup, hhold⟩, hminima, -⟩
  obtain ⟨hpositive, hE, hPowerOn, h5ms, h100us, h2ms⟩ := (meetsMinima_iff htick).1 hminima
  exact ⟨hE, hPowerOn, h5ms, h100us, h2ms, hpositive, hsetup, hhold⟩

/-- How far `P` lies above each lower bound of R7; 0 where it lies below. -/
def marginsOf (P : Params) (lcd : LcdTiming) : Margins :=
  { tick := P.tTickNs - max 1 (max lcd.setupNs lcd.holdNs)
    ePulse := P.nEPulse - minTicks 40000 P.tTickNs
    powerOn := P.nPowerOn - minTicks 15000000 P.tTickNs
    wait5ms := P.nWait5ms - minTicks 5000000 P.tTickNs
    wait100us := P.nWait100us - minTicks 100000 P.tTickNs
    wait2ms := P.nWait2ms - minTicks 2000000 P.tTickNs
    cntW := P.cntW - P.minCntW }

/-- An admissible build is the one its own margins give. -/
theorem eq_ofMargins_marginsOf {P : Params} {lcd : LcdTiming} (h : P.Admissible lcd) :
    P = ofMargins lcd (P.marginsOf lcd) := by
  obtain ⟨htick, ⟨hE, hPowerOn, h5ms, h100us, h2ms⟩, hcnt⟩ := h
  rw [tickCovers_iff_max_le] at htick
  rw [cntWide_iff_minCntW_le] at hcnt
  exact (eq_ofMargins_iff P lcd _).2
    ⟨(Nat.add_sub_of_le htick).symm, (Nat.add_sub_of_le hE).symm, (Nat.add_sub_of_le hPowerOn).symm,
      (Nat.add_sub_of_le h5ms).symm, (Nat.add_sub_of_le h100us).symm, (Nat.add_sub_of_le h2ms).symm,
      (Nat.add_sub_of_le hcnt).symm⟩

theorem ofMargins_admissible (lcd : LcdTiming) (m : Margins) : (ofMargins lcd m).Admissible lcd :=
  ⟨(tickCovers_iff_max_le _ lcd).2 (Nat.le_add_right _ m.tick),
    ⟨Nat.le_add_right _ _, Nat.le_add_right _ _, Nat.le_add_right _ _, Nat.le_add_right _ _,
      Nat.le_add_right _ _⟩,
    (cntWide_iff_minCntW_le _).2 (Nat.le_add_right _ m.cntW)⟩

/-- Settles O51: every bound of R7 is a lower bound, so the margins above it are any numbers at all. -/
theorem marginsGiveExactlyTheAdmissibleBuilds :
    Obligations.MarginsGiveExactlyTheAdmissibleBuilds := by
  intro P lcd
  constructor
  · exact fun h => ⟨P.marginsOf lcd, eq_ofMargins_marginsOf h⟩
  · rintro ⟨m, rfl⟩
    exact ofMargins_admissible lcd m

/-! ### The configurations of R8 -/

theorem ref_admissible_iff (lcd : LcdTiming) :
    ref.Admissible lcd ↔ lcd.setupNs ≤ 1000 ∧ lcd.holdNs ≤ 1000 := by
  have hminima : ref.MeetsMinima := by decide
  have hcnt : ref.CntWide := by decide
  constructor
  · rintro ⟨⟨-, hsetup, hhold⟩, -, -⟩
    exact ⟨hsetup, hhold⟩
  · rintro ⟨hsetup, hhold⟩
    exact ⟨⟨by decide, hsetup, hhold⟩, hminima, hcnt⟩

/-- Five power-on ticks must last 15 ms, and no other count of TOY asks for a slower clock. -/
theorem toy_meetsMinima_iff {T : Nat} (hT : 1 ≤ T) : (toy T).MeetsMinima ↔ 3000000 ≤ T := by
  rw [meetsMinima_iff (P := toy T) hT]
  simp only [CountsPositive, toy]
  omega

theorem toy_cntWide (T : Nat) : (toy T).CntWide := by
  simp [CntWide, maxCount, toy]

/-- Settles O52: REF's bounds are numbers, TOY's are the products of `meetsMinima_iff`, and the durations are
R214's formulas at REF's counts. -/
theorem referenceAndToyConfigurations : Obligations.ReferenceAndToyConfigurations :=
  ⟨ref_admissible_iff, fun _ hT => toy_meetsMinima_iff hT, toy_cntWide,
    fun _ _ => rfl, fun _ _ => rfl, rfl⟩

end Params

end Sys2Proof
end


section
/-!
PROOFS. Frames of the shared operations, one lemma per field, beside those of Laws/State.lean: beginning a
micro-op, and the registers a command sets when it is accepted (R84).
-/

namespace Sys2Proof.Machine

/-! ### Beginning a micro-op writes only LINE_RS, LINE_D, CNT and PHASE (R101, R142) -/

@[simp] theorem beginOp_lineE (op : MicroOp) (s : State) : (beginOp op s).lineE = s.lineE := by
  cases op <;> rfl
@[simp] theorem beginOp_src (op : MicroOp) (s : State) : (beginOp op s).src = s.src := by
  cases op <;> rfl
@[simp] theorem beginOp_upc (op : MicroOp) (s : State) : (beginOp op s).upc = s.upc := by
  cases op <;> rfl
@[simp] theorem beginOp_hrs (op : MicroOp) (s : State) : (beginOp op s).hrs = s.hrs := by
  cases op <;> rfl
@[simp] theorem beginOp_hval (op : MicroOp) (s : State) : (beginOp op s).hval = s.hval := by
  cases op <;> rfl
@[simp] theorem beginOp_hlen (op : MicroOp) (s : State) : (beginOp op s).hlen = s.hlen := by
  cases op <;> rfl
@[simp] theorem beginOp_ready (op : MicroOp) (s : State) : (beginOp op s).ready = s.ready := by
  cases op <;> rfl
@[simp] theorem beginOp_err (op : MicroOp) (s : State) : (beginOp op s).err = s.err := by
  cases op <;> rfl
@[simp] theorem beginOp_phase_ne_idle (op : MicroOp) (s : State) :
    (beginOp op s).phase ≠ .idle := by
  cases op <;> simp [beginOp]

/-! ### A command accepted and not rejected is latched, then its first micro-op begins (R84) -/

/-- The registers R84 sets before `begin`. -/
def latch : Instr → State → State
  | .init, s => { s with src := .init, upc := 0#5, ready := false }
  | .nibble rs n, s => { s with src := .host, hrs := rs, hval := zext8 n, hlen := .one, upc := 0#5 }
  | .byte rs b, s => { s with src := .host, hrs := rs, hval := b, hlen := .two, upc := 0#5 }

/-- The micro-op at index 0 of a command's sequence (R43, R140). -/
def firstOp (P : Params) : Instr → MicroOp
  | .init => .wait P.nPowerOn
  | .nibble rs n => .nib rs n
  | .byte rs b => .nib rs (hiNibble b)

@[simp] theorem latch_lineRs (i : Instr) (s : State) : (latch i s).lineRs = s.lineRs := by
  cases i <;> rfl
@[simp] theorem latch_lineE (i : Instr) (s : State) : (latch i s).lineE = s.lineE := by
  cases i <;> rfl
@[simp] theorem latch_lineD (i : Instr) (s : State) : (latch i s).lineD = s.lineD := by
  cases i <;> rfl
@[simp] theorem latch_cnt (i : Instr) (s : State) : (latch i s).cnt = s.cnt := by
  cases i <;> rfl
@[simp] theorem latch_upc (i : Instr) (s : State) : (latch i s).upc = 0#5 := by
  cases i <;> rfl
@[simp] theorem latch_err (i : Instr) (s : State) : (latch i s).err = s.err := by
  cases i <;> rfl
@[simp] theorem latch_build (i : Instr) (s : State) : (latch i s).build = s.build := by
  cases i <;> rfl
@[simp] theorem latch_ports (i : Instr) (s : State) : (latch i s).ports = s.ports := by
  cases i <;> rfl
@[simp] theorem latch_ready (i : Instr) (s : State) :
    (latch i s).ready = if i = .init then false else s.ready := by
  cases i <;> rfl

theorem latch_seqOp_zero (i : Instr) (s : State) :
    (latch i s).seqOp 0 = some (firstOp s.build i) := by
  cases i with
  | init => rfl
  | nibble rs n => simp [latch, firstOp, State.seqOp, State.sequence, hostSequence]
  | byte rs b => rfl

theorem latch_src_congr (i : Instr) (s t : State) : (latch i s).src = (latch i t).src := by
  cases i <;> rfl

/-- A latched command's sequence depends on nothing before it but the build. -/
theorem latch_sequence_congr (i : Instr) {s t : State} (hbuild : s.build = t.build) :
    (latch i s).sequence = (latch i t).sequence := by
  cases i with
  | init => exact congrArg initRom hbuild
  | nibble | byte => rfl

/-- The meaning of a command, said once for the three (R84, R171). -/
theorem exec_eq (i : Instr) (s : State) :
    exec i s = .next (if i = .init ∨ s.ready = true then beginOp (firstOp s.build i) (latch i s)
      else reject .notReady s) := by
  cases i with
  | init => simp only [true_or, if_true]; rfl
  | nibble rs n => cases hr : s.ready <;> simp [exec, execNibble, hr, firstOp, latch, beginOp]
  | byte rs b => cases hr : s.ready <;> simp [exec, execByte, hr, firstOp, latch, beginOp]

end Sys2Proof.Machine
end

section
/-!
PROOFS. The edge rule, phase by phase, as equations (R38, R39), and the statements that are one case of them.
-/

namespace Sys2Proof.Machine

/-! ### The step in each phase -/

theorem step_of_rst {s : State} (hrst : s.port.rst = true) :
    step s = .next (resetAll s.afterSample) := by
  simp [step, edge, hrst]

theorem step_of_offer {s : State} (hrst : s.port.rst = false) (hphase : s.phase = .idle)
    (hvalid : s.port.cmdValid = true) : step s = accept s.port.cmdWord s.afterSample := by
  simp [step, edge, hrst, hphase, hvalid]

theorem step_of_noOffer {s : State} (hrst : s.port.rst = false) (hphase : s.phase = .idle)
    (hvalid : s.port.cmdValid = false) : step s = .next s.afterSample := by
  simp [step, edge, hrst, hphase, hvalid]

theorem step_of_rise {s : State} (hrst : s.port.rst = false) (hphase : s.phase = .rise) :
    step s = .next (nibRise s.afterSample) := by
  simp [step, edge, hrst, hphase]

theorem step_of_high {s : State} (hrst : s.port.rst = false) (hphase : s.phase = .high) :
    step s = .next (nibHigh s.afterSample) := by
  simp [step, edge, hrst, hphase]

theorem step_of_next {s : State} (hrst : s.port.rst = false) (hphase : s.phase = .next) :
    step s = .next (advance s.afterSample) := by
  simp [step, edge, hrst, hphase]

theorem step_of_wait {s : State} (hrst : s.port.rst = false) (hphase : s.phase = .wait) :
    step s = .next (waitStep s.afterSample) := by
  simp [step, edge, hrst, hphase]

theorem accept_of_command {w : CmdWord} {i : Instr} (hdec : decode w = .command i) (s : State) :
    accept w s = exec i s := by
  simp [accept, hdec]

theorem accept_of_illegal {w : CmdWord} {why : IllFormed} (hdec : decode w = .illegal why)
    (s : State) : accept w s = .next (reject .illegal s) := by
  simp [accept, hdec]

/-- Settles O11: an offer in IDLE is accepted, and `accept` of a command's word is the command. -/
theorem stepRunsTheDecodedCommand : Obligations.StepRunsTheDecodedCommand := by
  intro s i hphase hrst hvalid hdec
  rw [step_of_offer hrst hphase hvalid, accept_of_command hdec]

/-- The word on the port is the table word, read as the decoder reads it. -/
theorem decode_tableWordOnPort {nbits w : Nat} {i : Instr} (h : decodeTableWord nbits w = some i) :
    decode (tableWordOnPort nbits w) = .command i := by
  unfold decodeTableWord at h
  unfold tableWordOnPort
  by_cases hlt : w % 2 ^ nbits < 4096
  · cases hdec : decode (BitVec.ofNat 12 (w % 2 ^ nbits)) with
    | command j => simpa [hlt, hdec] using h
    | illegal why => simp [hlt, hdec] at h
  · simp [hlt] at h

/-- Settles O12: placing the word makes it an offer in IDLE. -/
theorem placedWordRunsAtTheNextStep : Obligations.PlacedWordRunsAtTheNextStep := by
  intro s nbits w i h
  exact stepRunsTheDecodedCommand _ i rfl rfl rfl (decode_tableWordOnPort h)

/-- Outside IDLE the edge reads no input but `rst` (R38). -/
theorem edge_eq_of_not_taken {p q : PortInput} {s : State} (hrst : p.rst = q.rst)
    (h : p.rst = true ∨ s.phase ≠ .idle) : edge p s = edge q s := by
  cases hq : q.rst with
  | true => simp [edge, hrst, hq]
  | false =>
    have hphase : s.phase ≠ .idle := by simpa [hrst, hq] using h
    cases hp : s.phase with
    | idle => exact absurd hp hphase
    | rise | high | next | wait => simp [edge, hrst, hq, hp]

/-- Settles O13: the offer is read in IDLE alone, and a reset edge reads nothing else. -/
theorem offerIsTakenExactlyInIdleWithoutReset :
    Obligations.OfferIsTakenExactlyInIdleWithoutReset := by
  refine ⟨fun s hrst hvalid hphase => step_of_offer hrst hphase hvalid, ?_⟩
  intro s p q rest hrst h
  exact edge_eq_of_not_taken hrst h

/-! ### The sequence -/

theorem sequence_of_init {s : State} (hsrc : s.src = .init) : s.sequence = initRom s.build := by
  simp [State.sequence, hsrc]

theorem sequence_of_host {s : State} (hsrc : s.src = .host) :
    s.sequence = hostSequence s.hrs s.hval s.hlen := by
  simp [State.sequence, hsrc]

/-- Settles O21: the two lists written out; an index is in a list exactly below its length. -/
theorem sequenceLengthsAndHostNibbles : Obligations.SequenceLengthsAndHostNibbles := by
  intro s
  unfold State.seqLen State.seqOp
  refine ⟨fun hsrc => ?_, fun hsrc hlen => ?_, fun hsrc hlen => ?_, fun hsrc hlen => ?_,
    fun hsrc hlen => ?_, fun hsrc hlen => ?_, seqOp_isSome_iff s⟩
  · rw [sequence_of_init hsrc, initRom_length]
  all_goals rw [sequence_of_host hsrc, hlen]; rfl

/-! ### Moving through the sequence (R40, R41) -/

theorem upc_succ_eq (s : State) : BitVec.ofNat 5 (s.upc.toNat + 1) = s.upc + 1#5 := by
  apply BitVec.eq_of_toNat_eq
  simp [BitVec.toNat_add]

theorem upc_succ_toNat {s : State} {op : MicroOp} (hop : s.seqOp (s.upc.toNat + 1) = some op) :
    (s.upc + 1#5).toNat = s.upc.toNat + 1 := by
  rw [← upc_succ_eq, advance_upc_toNat hop]

theorem advance_of_some {s : State} {op : MicroOp} (hop : s.seqOp (s.upc.toNat + 1) = some op) :
    advance s = beginOp op { s with upc := s.upc + 1#5 } := by
  simp [advance, hop, upc_succ_eq]

theorem advance_of_end {s : State} (hend : s.seqLen ≤ s.upc.toNat + 1) :
    advance s = complete s := by
  simp [advance, (seqOp_eq_none_iff s _).2 hend]

theorem waitStep_of_ne_zero {s : State} (hcnt : s.cnt ≠ 0) :
    waitStep s = { s with cnt := s.cnt - 1 } := if_pos hcnt

theorem waitStep_of_zero {s : State} (hcnt : s.cnt = 0) : waitStep s = advance s :=
  if_neg (not_not.2 hcnt)

theorem nibHigh_of_ne_zero {s : State} (hcnt : s.cnt ≠ 0) :
    nibHigh s = { s with cnt := s.cnt - 1 } := if_pos hcnt

theorem nibHigh_of_more {s : State} (hcnt : s.cnt = 0) (hmore : s.upc.toNat + 1 < s.seqLen) :
    nibHigh s = { s with lineE := false, phase := .next } := by
  simp [nibHigh, hcnt, hmore]

theorem nibHigh_of_end {s : State} (hcnt : s.cnt = 0) (hend : ¬ s.upc.toNat + 1 < s.seqLen) :
    nibHigh s = complete { s with lineE := false } := by
  simp [nibHigh, hcnt, hend]

/-- Phase NEXT, and WAIT with CNT at 0, move through the sequence (R39, R143). -/
theorem step_of_advances {s : State} (hrst : s.port.rst = false)
    (h : s.phase = .next ∨ (s.phase = .wait ∧ s.cnt = 0)) :
    step s = .next (advance s.afterSample) := by
  obtain hphase | ⟨hphase, hcnt⟩ := h
  · exact step_of_next hrst hphase
  · rw [step_of_wait hrst hphase, waitStep_of_zero (s := s.afterSample) hcnt]

theorem complete_of_init {s : State} (hsrc : s.src = .init) :
    complete s = { s with phase := .idle, ready := true } := by
  simp [complete, hsrc]

theorem complete_of_host {s : State} (hsrc : s.src = .host) :
    complete s = { s with phase := .idle } := by
  simp [complete, hsrc]

/-- Settles O24: a wait counts or moves on; moving on begins the micro-op found, or completes. -/
theorem waitRunsDownAndTheNextMicroOpBegins :
    Obligations.WaitRunsDownAndTheNextMicroOpBegins := by
  intro s hrst
  refine ⟨fun hphase hcnt => ?_, fun h => ?_⟩
  · rw [step_of_wait hrst hphase, waitStep_of_ne_zero (s := s.afterSample) hcnt]; rfl
  rw [step_of_advances hrst h]
  refine ⟨fun r v hop => ?_, fun p hop => ?_, fun hend hsrc => ?_, fun hend hsrc => ?_⟩
  · rw [advance_of_some (s := s.afterSample) hop]; rfl
  · rw [advance_of_some (s := s.afterSample) hop]; rfl
  · rw [advance_of_end (s := s.afterSample) hend, complete_of_init (s := s.afterSample) hsrc]
  · rw [advance_of_end (s := s.afterSample) hend, complete_of_host (s := s.afterSample) hsrc]

end Sys2Proof.Machine
end

section
/-!
PROOFS. Which words are INIT and which are ILLEGAL, as the rules name them (R81, R86, R170).
-/

namespace Sys2Proof

theorem ofLevel_eq_command_iff (b : Bool) : Selector.ofLevel b = .command ↔ b = false := by
  cases b <;> simp [Selector.ofLevel]

theorem fieldsOf_bits_zero_iff (w : CmdWord) :
    (fieldsOf w).rs = .command ∧ (fieldsOf w).val = 0#8 ↔ w.extractLsb' 0 9 = 0#9 := by
  simp only [fieldsOf, ofLevel_eq_command_iff, BitVec.getLsbD, Nat.testBit_eq_decide_div_mod_eq,
    decide_eq_false_iff_not, ← BitVec.toNat_inj, BitVec.extractLsb'_toNat, BitVec.toNat_ofNat,
    Nat.shiftRight_eq_div_pow]
  omega

theorem op_reserved_iff (op : BitVec 3) :
    (op ≠ 0b001#3 ∧ op ≠ 0b010#3 ∧ op ≠ 0b011#3) ↔ op = 0b000#3 ∨ 0b100#3 ≤ op := by
  revert op; decide

/-- The decoder's tests as R84 and R86 write them, on the word's own bits. -/
theorem decode_eq (w : CmdWord) :
    decode w =
      if w.extractLsb' 9 3 = 0b001#3 then
        if w.extractLsb' 0 9 = 0#9 then .command .init else .illegal .initOperandSet
      else if w.extractLsb' 9 3 = 0b010#3 then
        if w.extractLsb' 4 4 = 0#4 then
          .command (.nibble (.ofLevel (w.getLsbD 8)) (loNibble (w.extractLsb' 0 8)))
        else .illegal .nibbleHighSet
      else if w.extractLsb' 9 3 = 0b011#3 then
        .command (.byte (.ofLevel (w.getLsbD 8)) (w.extractLsb' 0 8))
      else .illegal .reservedOpcode := by
  have hhi : hiNibble (fieldsOf w).val = w.extractLsb' 4 4 := by
    apply BitVec.eq_of_getLsbD_eq
    intro j hj
    simp [hiNibble, fieldsOf, hj]
  simp only [decode, decodeFields, fieldsOf_bits_zero_iff, hhi]
  rfl

theorem decode_eq_init_iff (w : CmdWord) : decode w = .command .init ↔ w = 0x200#12 := by
  have hword : w = 0x200#12 ↔ w.extractLsb' 9 3 = 0b001#3 ∧ w.extractLsb' 0 9 = 0#9 := by
    simp only [← BitVec.toNat_inj, BitVec.extractLsb'_toNat, BitVec.toNat_ofNat,
      Nat.shiftRight_eq_div_pow]
    omega
  rw [decode_eq, hword]
  split_ifs <;> simp_all

/-- The words without a meaning are the reserved ones (R86, R170). -/
theorem decode_illegal_iff (w : CmdWord) :
    (∃ why, decode w = .illegal why) ↔ Machine.IllegalWord w := by
  have hreserved := op_reserved_iff (w.extractLsb' 9 3)
  rw [decode_eq, Machine.IllegalWord, ← or_assoc, ← hreserved]
  by_cases hinit : w.extractLsb' 9 3 = 0b001#3
  · by_cases hlow : w.extractLsb' 0 9 = 0#9 <;> simp [hinit, hlow]
  by_cases hnibble : w.extractLsb' 9 3 = 0b010#3
  · by_cases hhigh : w.extractLsb' 4 4 = 0#4 <;> simp [hnibble, hhigh]
  by_cases hbyte : w.extractLsb' 9 3 = 0b011#3 <;> simp [hinit, hnibble, hbyte]

end Sys2Proof
end

section
/-!
PROOFS. Every edge as one of eleven transitions, each with its cause and the state after it (R39).
-/

namespace Sys2Proof.Machine

/-! ### Accepted and started commands (R38, R84) -/

theorem accepted_eq_some_iff (s : State) (w : CmdWord) :
    s.accepted = some w ↔ s.Offers w ∧ s.phase = .idle := by
  simp only [State.accepted, State.Offers, Option.ite_none_right_eq_some, Option.some.injEq]
  tauto

theorem accepted_eq_none_of_busy {s : State} (hbusy : s.phase ≠ .idle) : s.accepted = none := by
  simp [State.accepted, hbusy]

theorem accepted_eq_none_of_noOffer {s : State} (hvalid : s.port.cmdValid = false) :
    s.accepted = none := by
  simp [State.accepted, hvalid]

theorem started_eq_none_of_accepted {s : State} (hacc : s.accepted = none) : s.started = none := by
  simp [State.started, hacc]

theorem started_eq_none_of_busy {s : State} (hbusy : s.phase ≠ .idle) : s.started = none :=
  started_eq_none_of_accepted (accepted_eq_none_of_busy hbusy)

theorem started_of_illegal {s : State} {w : CmdWord} {why : IllFormed}
    (hacc : s.accepted = some w) (hdec : decode w = .illegal why) : s.started = none := by
  simp [State.started, hacc, hdec]

theorem started_of_command {s : State} {w : CmdWord} {i : Instr} (hacc : s.accepted = some w)
    (hdec : decode w = .command i) :
    s.started = if i = .init ∨ s.ready = true then some i else none := by
  simp [State.started, hacc, hdec]

/-! ### The transitions -/

/-- What one edge does: the ways out of each phase (R39, R40, R84, R102, R103, R143, R200). -/
inductive Transition (s : State) : State → Prop
  | reset (hrst : s.port.rst = true) : Transition s (resetAll s.afterSample)
  | quiet (hrst : s.port.rst = false) (hphase : s.phase = .idle) (hstart : s.started = none)
      (hacc : s.accepted = none) : Transition s s.afterSample
  | illegal {w : CmdWord} {why : IllFormed} (hrst : s.port.rst = false) (hphase : s.phase = .idle)
      (hstart : s.started = none) (hacc : s.accepted = some w) (hdec : decode w = .illegal why) :
      Transition s (reject .illegal s.afterSample)
  | notReady {w : CmdWord} {i : Instr} (hrst : s.port.rst = false) (hphase : s.phase = .idle)
      (hstart : s.started = none) (hacc : s.accepted = some w) (hdec : decode w = .command i)
      (hi : i ≠ .init) (hready : s.ready = false) : Transition s (reject .notReady s.afterSample)
  | starts {w : CmdWord} {i : Instr} (hrst : s.port.rst = false) (hphase : s.phase = .idle)
      (hstart : s.started = some i) (hacc : s.accepted = some w) (hdec : decode w = .command i)
      (hgo : i = .init ∨ s.ready = true) :
      Transition s (beginOp (firstOp s.build i) (latch i s.afterSample))
  | rises (hrst : s.port.rst = false) (hphase : s.phase = .rise) :
      Transition s (nibRise s.afterSample)
  | counts (hrst : s.port.rst = false) (hbusy : s.phase ≠ .idle)
      (hphase : s.phase = .high ∨ s.phase = .wait) (hcnt : s.cnt ≠ 0) :
      Transition s { s.afterSample with cnt := s.cnt - 1 }
  | falls (hrst : s.port.rst = false) (hphase : s.phase = .high) (hcnt : s.cnt = 0)
      (hmore : s.upc.toNat + 1 < s.seqLen) :
      Transition s { s.afterSample with lineE := false, phase := .next }
  | fallsLast (hrst : s.port.rst = false) (hphase : s.phase = .high) (hcnt : s.cnt = 0)
      (hend : ¬ s.upc.toNat + 1 < s.seqLen) :
      Transition s (complete { s.afterSample with lineE := false })
  | begins {op : MicroOp} (hrst : s.port.rst = false) (hbusy : s.phase ≠ .idle)
      (hphase : s.phase = .next ∨ (s.phase = .wait ∧ s.cnt = 0))
      (hop : s.seqOp (s.upc.toNat + 1) = some op) :
      Transition s (beginOp op { s.afterSample with upc := s.upc + 1#5 })
  | completes (hrst : s.port.rst = false) (hbusy : s.phase ≠ .idle)
      (hphase : s.phase = .next ∨ (s.phase = .wait ∧ s.cnt = 0))
      (hend : ¬ s.upc.toNat + 1 < s.seqLen) : Transition s (complete s.afterSample)

/-- A phase that moves through the sequence is NEXT or WAIT. -/
theorem phase_ne_of_advances {s : State} {p : Phase}
    (h : s.phase = .next ∨ (s.phase = .wait ∧ s.cnt = 0)) (hnext : .next ≠ p) (hwait : .wait ≠ p) :
    s.phase ≠ p := by
  obtain h | ⟨h, -⟩ := h <;> rwa [h]

theorem transition_of_advances {s t : State} (hrst : s.port.rst = false)
    (hphase : s.phase = .next ∨ (s.phase = .wait ∧ s.cnt = 0)) (ht : t = advance s.afterSample) :
    Transition s t := by
  subst ht
  have hbusy : s.phase ≠ .idle := phase_ne_of_advances hphase (by decide) (by decide)
  cases hop : s.seqOp (s.upc.toNat + 1) with
  | some op =>
    rw [advance_of_some (s := s.afterSample) hop]
    exact .begins hrst hbusy hphase hop
  | none =>
    have hend := (seqOp_eq_none_iff s _).1 hop
    rw [advance_of_end (s := s.afterSample) hend]
    exact .completes hrst hbusy hphase (not_lt.2 hend)

theorem transition_of_exec {s t : State} {w : CmdWord} {i : Instr} (hrst : s.port.rst = false)
    (hphase : s.phase = .idle) (hacc : s.accepted = some w) (hdec : decode w = .command i)
    (h : exec i s.afterSample = .next t) : Transition s t := by
  have hstart := started_of_command hacc hdec
  rw [exec_eq] at h
  obtain rfl := Host.Outcome.next.inj h
  split_ifs with hgo
  · exact .starts hrst hphase (hstart.trans (if_pos hgo)) hacc hdec hgo
  · obtain ⟨hi, hready⟩ := not_or.1 hgo
    exact .notReady hrst hphase (hstart.trans (if_neg hgo)) hacc hdec hi
      (Bool.eq_false_of_not_eq_true hready)

theorem transition_of_step {s t : State} (h : step s = .next t) : Transition s t := by
  obtain ⟨hrst, rfl⟩ | ⟨hrst, hcases⟩ := step_cases h
  · exact .reset hrst
  obtain ⟨hphase, hvalid, rfl⟩ | ⟨hphase, hvalid, hoffer⟩ | ⟨hphase, rfl⟩ | ⟨hphase, rfl⟩ |
    ⟨hphase, ht⟩ | ⟨hphase, ht⟩ := hcases
  · have hacc := accepted_eq_none_of_noOffer hvalid
    exact .quiet hrst hphase (started_eq_none_of_accepted hacc) hacc
  · have hacc := (accepted_eq_some_iff s _).2 ⟨⟨hrst, hvalid, rfl⟩, hphase⟩
    obtain ⟨i, hdec, hexec⟩ | ⟨why, hdec, rfl⟩ := hoffer
    · exact transition_of_exec hrst hphase hacc hdec hexec
    · exact .illegal hrst hphase (started_of_illegal hacc hdec) hacc hdec
  · exact .rises hrst hphase
  · obtain ⟨hcnt, ht⟩ | ⟨hcnt, hmore, ht⟩ | ⟨hcnt, hend, ht⟩ := nibHigh_cases s.afterSample <;>
      rw [ht]
    · exact .counts hrst (by simp [hphase]) (.inl hphase) hcnt
    · exact .falls hrst hphase hcnt hmore
    · exact .fallsLast hrst hphase hcnt (not_lt.2 hend)
  · exact transition_of_advances hrst (.inl hphase) ht
  · obtain ⟨hcnt, hw⟩ | ⟨hcnt, hw⟩ := waitStep_cases s.afterSample <;> rw [hw] at ht
    · subst ht
      exact .counts hrst (by simp [hphase]) (.inr hphase) hcnt
    · exact transition_of_advances hrst (.inr ⟨hphase, hcnt⟩) ht

end Sys2Proof.Machine
end

section
/-!
PROOFS. The two invariants: each transition keeps them (R26, R43, R47, R49, R101), so every state reachable from
reset meets the first; and what they say of the lines at a fall of E (R44, R45, R48).
-/

namespace Sys2Proof.Machine

/-! ### Loads of CNT fit its width (R7, R26) -/

theorem wait_le_maxCount {s : State} {u p : Nat} (hop : s.seqOp u = some (.wait p)) :
    p ≤ s.build.maxCount := by
  have hmem : MicroOp.wait p ∈ s.sequence := List.mem_of_getElem? hop
  cases hsrc : s.src with
  | init =>
    simp only [sequence_of_init hsrc, initRom, List.mem_cons, MicroOp.wait.injEq, reduceCtorEq,
      List.not_mem_nil, false_or, or_false] at hmem
    simp only [Params.maxCount]
    omega
  | host =>
    rw [sequence_of_host hsrc] at hmem
    cases hlen : s.hlen <;> simp [hostSequence, hlen] at hmem

theorem wait_load_fits {s : State} {u p : Nat} (hop : s.seqOp u = some (.wait p))
    (hwide : s.build.CntWide) : p - 1 < 2 ^ s.build.cntW :=
  (Nat.sub_le_sub_right (wait_le_maxCount hop) 1).trans_lt hwide.1

theorem pulse_load_fits {P : Params} (hwide : P.CntWide) : P.nEPulse - 1 < 2 ^ P.cntW :=
  (Nat.sub_le_sub_right (le_max_left _ _) 1).trans_lt hwide.1

/-! ### The invariant of R47 and R49 -/

/-- In IDLE the invariant is about E, UPC's range and CNT's width alone. -/
theorem inv_of_idle {s : State} (hphase : s.phase = .idle) (hE : s.lineE = false)
    (hupc : s.upc.toNat ≤ 16) (hcnt : s.cnt < 2 ^ s.build.cntW) (hwide : s.build.CntWide) :
    s.Inv where
  e_iff_high := by simp [hE, hphase]
  upc_in_seq := by simp [hphase]
  next_has_more := by simp [hphase]
  high_cnt := by simp [hphase]
  wait_cnt := by simp [hphase]
  init_unready := by simp [hphase]
  upc_le := hupc
  cnt_fits := hcnt
  build_wide := hwide

theorem resetAll_atReset (s : State) : (resetAll s).AtReset := by
  simp [State.AtReset]

theorem inv_of_atReset {s : State} (hreset : s.AtReset) (hwide : s.build.CntWide) : s.Inv := by
  obtain ⟨-, hE, -, hphase, hcnt, -, hupc, -⟩ := hreset
  exact inv_of_idle hphase hE (by simp [hupc]) (by simp [hcnt]) hwide

theorem State.Inv.lineE_low {s : State} (hinv : s.Inv) (hphase : s.phase ≠ .high) :
    s.lineE = false := by
  simpa [hphase] using hinv.e_iff_high

theorem State.Inv.lineE_low_of_advances {s : State} (hinv : s.Inv)
    (hphase : s.phase = .next ∨ (s.phase = .wait ∧ s.cnt = 0)) : s.lineE = false :=
  hinv.lineE_low (phase_ne_of_advances hphase (by decide) (by decide))

/-- Beginning the micro-op UPC points at, with E low, gives the invariant. -/
theorem inv_beginOp {s : State} {op : MicroOp} (hE : s.lineE = false)
    (hop : s.seqOp s.upc.toNat = some op) (hready : s.src = .init → s.ready = false)
    (hcnt : s.cnt < 2 ^ s.build.cntW) (hwide : s.build.CntWide) : (beginOp op s).Inv := by
  have hlt : s.upc.toNat < s.seqLen := seqOp_some_lt hop
  have hupc : s.upc.toNat ≤ 16 := by have := seqLen_le s; omega
  cases op with
  | nib r v =>
    exact
      { e_iff_high := by simp [beginOp, hE]
        upc_in_seq := fun _ => hlt
        next_has_more := by simp [beginOp]
        high_cnt := by simp [beginOp]
        wait_cnt := by simp [beginOp]
        init_unready := fun hsrc _ => hready hsrc
        upc_le := hupc
        cnt_fits := hcnt
        build_wide := hwide }
  | wait p =>
    exact
      { e_iff_high := by simp [beginOp, hE]
        upc_in_seq := fun _ => hlt
        next_has_more := by simp [beginOp]
        high_cnt := by simp [beginOp]
        wait_cnt := fun _ => ⟨p, hop, le_rfl⟩
        init_unready := fun hsrc _ => hready hsrc
        upc_le := hupc
        cnt_fits := wait_load_fits hop hwide
        build_wide := hwide }

theorem latch_init_unready (i : Instr) (s : State) (hsrc : (latch i s).src = .init) :
    (latch i s).ready = false := by
  cases i with
  | init => rfl
  | nibble | byte => cases hsrc

theorem step_keeps_inv {s t : State} (hinv : s.Inv) (h : step s = .next t) : t.Inv := by
  cases transition_of_step h with
  | reset => exact inv_of_atReset (resetAll_atReset _) hinv.build_wide
  | quiet hrst hphase | illegal hrst hphase | notReady hrst hphase =>
    exact inv_of_idle hphase (hinv.lineE_low (by simp [hphase])) hinv.upc_le hinv.cnt_fits
      hinv.build_wide
  | starts hrst hphase =>
    exact inv_beginOp (by simpa using hinv.lineE_low (by simp [hphase]))
      (by simpa using latch_seqOp_zero _ s.afterSample) (latch_init_unready _ _)
      (by simpa using hinv.cnt_fits) (by simpa using hinv.build_wide)
  | rises hrst hphase =>
    have hbusy : s.phase ≠ .idle := by simp [hphase]
    exact
      { e_iff_high := by simp
        upc_in_seq := fun _ => hinv.upc_in_seq hbusy
        next_has_more := by simp
        high_cnt := fun _ => le_rfl
        wait_cnt := by simp
        init_unready := fun hsrc _ => hinv.init_unready hsrc hbusy
        upc_le := hinv.upc_le
        cnt_fits := pulse_load_fits hinv.build_wide
        build_wide := hinv.build_wide }
  | counts =>
    exact
      { e_iff_high := hinv.e_iff_high
        upc_in_seq := hinv.upc_in_seq
        next_has_more := hinv.next_has_more
        high_cnt := fun hp => (Nat.sub_le _ _).trans (hinv.high_cnt hp)
        wait_cnt := fun hp => (hinv.wait_cnt hp).imp fun _ ⟨hop, hle⟩ =>
          ⟨hop, (Nat.sub_le _ _).trans hle⟩
        init_unready := hinv.init_unready
        upc_le := hinv.upc_le
        cnt_fits := (Nat.sub_le _ _).trans_lt hinv.cnt_fits
        build_wide := hinv.build_wide }
  | falls hrst hphase hcnt hmore =>
    have hbusy : s.phase ≠ .idle := by simp [hphase]
    exact
      { e_iff_high := by simp
        upc_in_seq := fun _ => hinv.upc_in_seq hbusy
        next_has_more := fun _ => hmore
        high_cnt := by simp
        wait_cnt := by simp
        init_unready := fun hsrc _ => hinv.init_unready hsrc hbusy
        upc_le := hinv.upc_le
        cnt_fits := hinv.cnt_fits
        build_wide := hinv.build_wide }
  | fallsLast => exact inv_of_idle rfl rfl hinv.upc_le hinv.cnt_fits hinv.build_wide
  | begins hrst hbusy hphase hop =>
    have hE : s.lineE = false := hinv.lineE_low_of_advances hphase
    exact inv_beginOp hE (by rwa [upc_succ_toNat hop])
      (fun hsrc => hinv.init_unready hsrc hbusy) hinv.cnt_fits hinv.build_wide
  | completes hrst hbusy hphase =>
    have hE : s.lineE = false := hinv.lineE_low_of_advances hphase
    exact inv_of_idle rfl hE hinv.upc_le hinv.cnt_fits hinv.build_wide

/-- Settles O40: each transition keeps the invariant. -/
theorem everyEdgeKeepsTheInvariant : Obligations.EveryEdgeKeepsTheInvariant :=
  fun _ _ hinv h => step_keeps_inv hinv h

/-- What every step keeps, every run keeps. -/
theorem run_keeps {Q : State → Prop} (hstep : ∀ s t, Q s → step s = .next t → Q t) {k : Nat}
    {s t : State} (hs : Q s) (h : run k s = .next t) : Q t := by
  induction k generalizing s with
  | zero => cases h; exact hs
  | succ k ih =>
    obtain ⟨u, hu⟩ := step_isNext s
    exact ih (hstep s u hs hu) (by rwa [run_succ k hu] at h)

/-- Settles O42: the reset values meet the invariant in every build wide enough, and every step keeps it. -/
theorem statesReachableFromResetMeetTheInvariant :
    Obligations.StatesReachableFromResetMeetTheInvariant := by
  intro s t k hreset hwide h
  have hinv : t.Inv := run_keeps everyEdgeKeepsTheInvariant (inv_of_atReset hreset hwide) h
  exact ⟨hinv.e_iff_high, hinv.upc_in_seq, hinv.next_has_more, hinv.high_cnt, hinv.wait_cnt,
    hinv.init_unready⟩

/-! ### The lines carry the current nibble (R43, R101) -/

theorem linesCarryOp_beginOp {s : State} {op : MicroOp} (hop : s.seqOp s.upc.toNat = some op) :
    (beginOp op s).LinesCarryOp := by
  cases op with
  | nib r v => exact fun _ => hop
  | wait p => simp [State.LinesCarryOp, beginOp]

theorem linesCarryOp_of_idle {s : State} (hphase : s.phase = .idle) : s.LinesCarryOp := by
  simp [State.LinesCarryOp, hphase]

/-- Settles O41: a nibble that begins is put on the lines, and until the next micro-op begins neither they nor
the running sequence change. -/
theorem everyEdgeKeepsTheLinesOnTheCurrentNibble :
    Obligations.EveryEdgeKeepsTheLinesOnTheCurrentNibble := by
  intro s t hcarry h
  cases transition_of_step h with
  | reset | fallsLast | completes => exact linesCarryOp_of_idle rfl
  | quiet hrst hphase | illegal hrst hphase | notReady hrst hphase =>
    exact linesCarryOp_of_idle hphase
  | starts => exact linesCarryOp_beginOp (by simpa using latch_seqOp_zero _ s.afterSample)
  | rises hrst hphase => exact fun _ => hcarry (.inl hphase)
  | counts => exact hcarry
  | falls hrst hphase => exact fun _ => hcarry (.inr (.inl hphase))
  | begins hrst hbusy hphase hop => exact linesCarryOp_beginOp (by rwa [upc_succ_toNat hop])

/-- Settles O39: the reset values, and the open build is admissible. -/
theorem resetStateMeetsTheInvariant : Obligations.ResetStateMeetsTheInvariant := by
  have hbuild : Config.build.Admissible Config.lcd := Params.ofMargins_admissible _ _
  obtain ⟨-, -, hwide⟩ := hbuild
  exact ⟨inv_of_atReset (by decide) hwide, linesCarryOp_of_idle rfl⟩

/-! ### Where the lines change (R44, R45, R48) -/

/-- A micro-op whose beginning changes LINE_RS or LINE_D is the nibble they then carry. -/
theorem beginOp_lines_change {s : State} {op : MicroOp} (hop : s.seqOp s.upc.toNat = some op)
    (hchange : (beginOp op s).lineRs ≠ s.lineRs ∨ (beginOp op s).lineD ≠ s.lineD) :
    (beginOp op s).phase = .rise ∧ (beginOp op s).seqOp (beginOp op s).upc.toNat =
      some (.nib (beginOp op s).lineRs (beginOp op s).lineD) := by
  cases op with
  | nib r v => exact ⟨rfl, hop⟩
  | wait p => simp [beginOp] at hchange

/-- Settles O34: only a micro-op that begins, or a reset, writes the lines, and E is low where one begins. -/
theorem rsAndDChangeOnlyWhereANibbleBegins :
    Obligations.RsAndDChangeOnlyWhereANibbleBegins := by
  intro s t hinv h hchange
  cases transition_of_step h with
  | reset hrst => exact .inl hrst
  | starts hrst hphase =>
    have hE : s.lineE = false := hinv.lineE_low (by simp [hphase])
    exact .inr ⟨.inl hphase, hE, by simpa using hE,
      beginOp_lines_change (by simpa using latch_seqOp_zero _ s.afterSample) (by simpa using hchange)⟩
  | begins hrst hbusy hphase hop =>
    have hE : s.lineE = false := hinv.lineE_low_of_advances hphase
    exact .inr ⟨.inr (hphase.imp_right And.left), hE, by simpa using hE,
      beginOp_lines_change (by rwa [upc_succ_toNat hop]) hchange⟩
  | quiet | illegal | notReady | rises | counts | falls | fallsLast | completes =>
    simp at hchange

/-- E falls without a reset only at the end of HIGH, and the lines hold through the fall (R48, R103). -/
theorem fall_of_lineE {s t : State} (hinv : s.Inv) (h : step s = .next t)
    (hrst : s.port.rst = false) (hE : s.lineE = true) (hE' : t.lineE = false) :
    s.phase = .high ∧ s.cnt = 0 ∧ t.lineRs = s.lineRs ∧ t.lineD = s.lineD := by
  have hphase : s.phase = .high := hinv.e_iff_high.1 hE
  obtain ⟨hcnt, hhigh⟩ | ⟨hcnt, -, hhigh⟩ | ⟨hcnt, -, hhigh⟩ := nibHigh_cases s.afterSample <;>
    rw [step_of_high hrst hphase, hhigh] at h <;> obtain rfl := Host.Outcome.next.inj h
  · simp [hE] at hE'
  · exact ⟨hphase, hcnt, rfl, rfl⟩
  · exact ⟨hphase, hcnt, rfl, rfl⟩

theorem latchAt_eq_some_iff (n : Nat) (s t : State) (ev : LatchEvent) :
    latchAt n s t = some ev ↔
      (s.lineE = true ∧ t.lineE = false ∧ s.port.rst = false) ∧
        { edge := n, rs := t.lineRs, d := t.lineD } = ev := by
  simp [latchAt, Option.ite_none_right_eq_some]

theorem latchAt_of_rst (n : Nat) {s : State} (t : State) (hrst : s.port.rst = true) :
    latchAt n s t = none := by
  simp [latchAt, hrst]

/-- Settles O43: without a reset E falls at the end of HIGH, with one it is the reset that drops it. -/
theorem latchEventsAndTruncatedStrobesAreApart :
    Obligations.LatchEventsAndTruncatedStrobesAreApart := by
  intro n s t hinv h
  refine ⟨fun ev hev => ?_, fun htrunc => ?_⟩
  · obtain ⟨⟨hE, hE', hrst⟩, rfl⟩ := (latchAt_eq_some_iff n s t ev).1 hev
    obtain ⟨hphase, hcnt, hrs, hd⟩ := fall_of_lineE hinv h hrst hE hE'
    exact ⟨rfl, hrs, hd, hrst, hphase, hcnt⟩
  · obtain ⟨-, hrst⟩ : s.lineE = true ∧ s.port.rst = true := by
      simpa [State.truncatesStrobe] using htrunc
    rw [step_of_rst hrst] at h
    obtain rfl := Host.Outcome.next.inj h
    exact ⟨latchAt_of_rst n _ hrst, rfl, rfl, rfl⟩

end Sys2Proof.Machine
end

section
/-!
PROOFS. Who writes LINE_E, SRC, HRS, HVAL, HLEN, UPC, CNT, READY and ERR (R23 to R31): each statement is read
off the transitions.
-/

namespace Sys2Proof.Machine

/-- Settles O28: of the transitions only the rise, the two falls and reset write LINE_E. -/
theorem lineEIsWrittenOnlyByTheStrobeAndReset :
    Obligations.LineEIsWrittenOnlyByTheStrobeAndReset := by
  intro s t h
  cases transition_of_step h with
  | reset hrst => simp [hrst]
  | quiet hrst hphase | illegal hrst hphase | notReady hrst hphase | starts hrst hphase =>
    simp [hrst, hphase]
  | rises hrst hphase => simp [hrst, hphase]
  | counts hrst hbusy hphase hcnt => obtain hphase | hphase := hphase <;> simp [hrst, hphase, hcnt]
  | falls hrst hphase hcnt | fallsLast hrst hphase hcnt => simp [hrst, hphase, hcnt]
  | begins hrst hbusy hphase | completes hrst hbusy hphase =>
    obtain hphase | ⟨hphase, -⟩ := hphase <;> simp [hrst, hphase]

/-- Settles O29: a started command is latched, and no other transition but reset writes these registers. -/
theorem sourceAndHostLatchAreWrittenOnlyAtAcceptance :
    Obligations.SourceAndHostLatchAreWrittenOnlyAtAcceptance := by
  intro s t h
  cases transition_of_step h with
  | reset hrst => simp [hrst]
  | quiet hrst hphase hstart | illegal hrst hphase hstart | notReady hrst hphase hstart =>
    simp [hrst, hstart]
  | @starts w i hrst hphase hstart =>
    rw [hstart]
    cases i <;> simp [hrst, latch, zext8]
  | rises hrst hphase | falls hrst hphase | fallsLast hrst hphase =>
    simp [hrst, started_eq_none_of_busy, hphase]
  | counts hrst hbusy | begins hrst hbusy | completes hrst hbusy =>
    simp [hrst, started_eq_none_of_busy hbusy]

theorem seqLen_le_of_host {s : State} (hsrc : s.src = .host) : s.seqLen ≤ 2 := by
  rw [State.seqLen, sequence_of_host hsrc]
  cases s.hlen <;> simp

/-- Settles O30: a command that starts clears UPC, a micro-op that begins advances it, no other transition but
reset writes it; the bound is the sequence's length. -/
theorem upcIsSetAtAcceptanceAndAdvancedByOne :
    Obligations.UpcIsSetAtAcceptanceAndAdvancedByOne := by
  refine ⟨fun s t h => ?_, fun s hinv hbusy => ⟨fun _ => hinv.upc_le, fun hsrc => ?_⟩⟩
  · cases transition_of_step h with
    | reset hrst => simp [hrst]
    | quiet hrst hphase hstart | illegal hrst hphase hstart | notReady hrst hphase hstart =>
      simp [hrst, hphase, hstart]
    | starts hrst hphase hstart => simp [hstart]
    | rises hrst hphase | falls hrst hphase | fallsLast hrst hphase =>
      simp [hrst, hphase, started_eq_none_of_busy]
    | counts hrst hbusy hphase hcnt =>
      obtain hphase | hphase := hphase <;> simp [hrst, hphase, hcnt, started_eq_none_of_busy]
    | begins hrst hbusy hphase hop =>
      simp [hrst, hphase, started_eq_none_of_busy hbusy, seqOp_some_lt hop]
    | completes hrst hbusy hphase hend => simp [hrst, hend, started_eq_none_of_busy hbusy]
  · have hlt := hinv.upc_in_seq hbusy
    have hlen := seqLen_le_of_host hsrc
    omega

/-- Settles O31: the loads and the count are one transition each; the width is the invariant's, which the edge
keeps. -/
theorem cntIsOnlyLoadedOrDecremented : Obligations.CntIsOnlyLoadedOrDecremented := by
  intro s t h
  refine ⟨?_, fun hinv => (step_keeps_inv hinv h).cnt_fits⟩
  cases transition_of_step h with
  | reset hrst => simp [hrst]
  | quiet hrst hphase hstart | illegal hrst hphase hstart | notReady hrst hphase hstart =>
    simp [hrst, hphase, hstart]
  | @starts w i hrst hphase hstart =>
    rw [hstart]
    cases i <;> simp [hrst, hphase, firstOp, beginOp]
  | rises hrst hphase => simp [hrst, hphase]
  | counts hrst hbusy hphase hcnt =>
    obtain hphase | hphase := hphase <;> simp [hrst, hphase, hcnt, started_eq_none_of_busy]
  | falls hrst hphase hcnt | fallsLast hrst hphase hcnt =>
    simp [hrst, hphase, hcnt, started_eq_none_of_busy]
  | @begins op hrst hbusy hphase hop =>
    have hrise : s.phase ≠ .rise := phase_ne_of_advances hphase (by decide) (by decide)
    cases op <;> simp [hrst, hphase, hrise, hop, started_eq_none_of_busy hbusy, beginOp]
  | completes hrst hbusy hphase hend =>
    have hrise : s.phase ≠ .rise := phase_ne_of_advances hphase (by decide) (by decide)
    have hop := (seqOp_eq_none_iff s _).2 (not_lt.1 hend)
    simp [hrst, hphase, hrise, hop, started_eq_none_of_busy hbusy]

/-- A word that decodes to anything but INIT is not INIT's word (R81). -/
theorem ne_initWord_of_decode {w : CmdWord} {d : Decoded} (hdec : decode w = d)
    (hd : d ≠ .command .init) : w ≠ 0x200#12 := by
  rwa [Ne, ← decode_eq_init_iff, hdec]

/-- Settles O32: INIT's word clears READY; READY is set where INIT's sequence completes. -/
theorem readyIsWrittenOnlyByInitAndReset : Obligations.ReadyIsWrittenOnlyByInitAndReset := by
  intro s t h
  cases transition_of_step h with
  | reset hrst => simp [hrst]
  | quiet hrst hphase hstart hacc => simp [hrst, hphase, hacc]
  | illegal hrst hphase hstart hacc hdec =>
    simp [hrst, hphase, hacc, ne_initWord_of_decode hdec]
  | notReady hrst hphase hstart hacc hdec hi =>
    simp [hrst, hphase, hacc, ne_initWord_of_decode hdec, hi]
  | starts hrst hphase hstart hacc hdec =>
    simp [hrst, hphase, hacc, ← decode_eq_init_iff, hdec]
  | rises hrst hphase | falls hrst hphase | fallsLast hrst hphase =>
    simp [hrst, hphase, accepted_eq_none_of_busy]
  | counts hrst hbusy => simp [hrst, accepted_eq_none_of_busy hbusy, hbusy]
  | begins hrst hbusy => simp [hrst, accepted_eq_none_of_busy hbusy]
  | completes hrst hbusy =>
    by_cases hsrc : s.src = .init <;> simp [hrst, accepted_eq_none_of_busy hbusy, hbusy, hsrc]

theorem not_illegalWord_of_command {w : CmdWord} {i : Instr} (hdec : decode w = .command i) :
    ¬ IllegalWord w := by
  simp [← decode_illegal_iff, hdec]

theorem ErrCode.code_ne_three (c : ErrCode) : c.code ≠ 3#2 := by
  cases c <;> decide

/-- Settles O33: the two rejections write ERR, and they are the accepted words that start nothing. -/
theorem errIsWrittenOnlyByRejectionAndReset :
    Obligations.ErrIsWrittenOnlyByRejectionAndReset := by
  refine ⟨fun s t h => ?_, ErrCode.code_ne_three⟩
  cases transition_of_step h with
  | reset hrst => simp [hrst]
  | quiet hrst hphase hstart hacc => simp [hrst, hacc]
  | illegal hrst hphase hstart hacc hdec =>
    have hw := (decode_illegal_iff _).1 ⟨_, hdec⟩
    simp only [hrst, hacc, hw, if_true]
    rfl
  | notReady hrst hphase hstart hacc hdec hi hready =>
    simp [hrst, hacc, not_illegalWord_of_command hdec, ne_initWord_of_decode hdec, hi, hready]
  | starts hrst hphase hstart hacc hdec hgo =>
    obtain rfl | hready := hgo
    · simp [hrst, hacc, (decode_eq_init_iff _).1 hdec]
    · simp [hrst, hacc, not_illegalWord_of_command hdec, hready]
  | rises hrst hphase | falls hrst hphase | fallsLast hrst hphase =>
    simp [hrst, hphase, accepted_eq_none_of_busy]
  | counts hrst hbusy | begins hrst hbusy | completes hrst hbusy =>
    simp [hrst, accepted_eq_none_of_busy hbusy]

end Sys2Proof.Machine
end

section
/-!
PROOFS. The output ports bit by bit (R36, R37, R63), the reset values (R200), and what the outputs do not
show: whatever preceded a reset (R202), and the hidden registers of a machine in IDLE (R50).
-/

namespace Sys2Proof.Machine

/-! ### The status fields (R37) -/

theorem status_fields (s : State) :
    s.status.getLsbD 0 = s.ready ∧ s.status.getLsbD 1 = s.busy ∧
      s.status.extractLsb' 2 2 = s.err.code := by
  unfold State.status
  generalize s.err.code = c, s.busy = b, s.ready = r
  revert c b r
  decide

theorem ErrCode.code_injective : Function.Injective ErrCode.code := by
  intro c d; cases c <;> cases d <;> decide

theorem selectorLevel_injective : Function.Injective Selector.level :=
  Function.LeftInverse.injective Selector.ofLevel_level

/-- Settles O37: each port is its register; the status bits are `status_fields`. -/
theorem outputsShowTheRegisters : Obligations.OutputsShowTheRegisters := by
  intro s
  obtain ⟨hready, hbusy, herr⟩ := status_fields s
  refine ⟨rfl, rfl, rfl, ?_, hready, ?_, herr, ?_, rfl, rfl, rfl, rfl, rfl, rfl,
    rfl, rfl, rfl⟩
  · simp [State.outputs, State.cmdReady]
  · rw [State.outputs, hbusy]
    simp [State.busy]
  · rw [State.outputs, herr]
    exact ErrCode.code_ne_three s.err

/-- Settles O25: a reset leaves the reset state as it is, and the build of any margins is admissible. -/
theorem resetStateHasTheResetValues : Obligations.ResetStateHasTheResetValues :=
  ⟨resetAll_atReset State.reset, rfl, Params.ofMargins_admissible _ _, rfl⟩

/-! ### A reset edge forgets the registers (R200, R202) -/

theorem resetAll_congr {s t : State} (hbuild : s.build = t.build) (hports : s.ports = t.ports) :
    resetAll s.afterSample = resetAll t.afterSample := by
  simp only [resetAll, State.afterSample, hbuild, hports]

theorem port_congr {s t : State} (hports : s.ports = t.ports) : s.port = t.port := by
  rw [State.port, hports, State.port]

theorem observe_succ {s t : State} (k : Nat) (h : step s = .next t) :
    observe (k + 1) s = { port := s.port, out := t.outputs } :: observe k t := by
  simp only [observe, h]

/-- Settles O27: the two machines are in one state after the reset edge. -/
theorem nothingBeforeAResetShowsAfterIt : Obligations.NothingBeforeAResetShowsAfterIt := by
  intro s t k hbuild hports hrst
  cases k with
  | zero => rfl
  | succ k =>
    have hport := port_congr hports
    rw [observe_succ k (step_of_rst hrst), observe_succ k (step_of_rst (hport ▸ hrst)), hport,
      resetAll_congr hbuild hports]

/-! ### Two machines an observer cannot tell apart -/

/-- Equal in all but the registers that cannot show from here on: CNT matters while it counts, the running
sequence and UPC until it completes, and HRS, HVAL, HLEN only as part of a running sequence (R50). -/
structure Indistinguishable (s t : State) : Prop where
  lineRs   : s.lineRs = t.lineRs
  lineE    : s.lineE = t.lineE
  lineD    : s.lineD = t.lineD
  phase    : s.phase = t.phase
  ready    : s.ready = t.ready
  err      : s.err = t.err
  build    : s.build = t.build
  ports    : s.ports = t.ports
  src      : s.phase ≠ .idle → s.src = t.src
  upc      : s.phase ≠ .idle → s.upc = t.upc
  sequence : s.phase ≠ .idle → s.sequence = t.sequence
  cnt      : s.phase = .high ∨ s.phase = .wait → s.cnt = t.cnt

namespace Indistinguishable

theorem refl (s : State) : Indistinguishable s s :=
  ⟨rfl, rfl, rfl, rfl, rfl, rfl, rfl, rfl, fun _ => rfl, fun _ => rfl, fun _ => rfl, fun _ => rfl⟩

theorem outputs {s t : State} (h : Indistinguishable s t) : s.outputs = t.outputs := by
  simp only [State.outputs, State.cmdReady, State.status, State.busy, h.lineRs, h.lineE, h.lineD,
    h.phase, h.ready, h.err]

/-- In IDLE everything that matters is on the output ports. -/
theorem of_idle_outputs {s t : State} (hs : s.phase = .idle) (ht : t.phase = .idle)
    (hout : s.outputs = t.outputs) (hbuild : s.build = t.build) (hports : s.ports = t.ports) :
    Indistinguishable s t := by
  have hstatus : s.status = t.status := congrArg Outputs.status hout
  obtain ⟨hsReady, -, hsErr⟩ := status_fields s
  obtain ⟨htReady, -, htErr⟩ := status_fields t
  exact
    { lineRs := selectorLevel_injective (congrArg Outputs.rs hout)
      lineE := congrArg Outputs.e hout
      lineD := congrArg Outputs.d hout
      phase := hs.trans ht.symm
      ready := by rw [← hsReady, hstatus, htReady]
      err := ErrCode.code_injective (by rw [← hsErr, hstatus, htErr])
      build := hbuild
      ports := hports
      src := by simp [hs]
      upc := by simp [hs]
      sequence := by simp [hs]
      cnt := by simp [hs] }

theorem afterSample {s t : State} (h : Indistinguishable s t) :
    Indistinguishable s.afterSample t.afterSample :=
  { h with ports := congrArg List.tail h.ports }

theorem reject {s t : State} (h : Indistinguishable s t) (code : ErrCode) :
    Indistinguishable (reject code s) (reject code t) :=
  { h with err := rfl }

/-- Where the running sequence and UPC agree, beginning a micro-op makes the rest agree. -/
theorem beginOp {s t : State} (h : Indistinguishable s t) (op : MicroOp) (hsrc : s.src = t.src)
    (hupc : s.upc = t.upc) (hseq : s.sequence = t.sequence) :
    Indistinguishable (beginOp op s) (beginOp op t) := by
  cases op with
  | nib r v =>
    exact { h with
      lineRs := rfl, lineD := rfl, phase := rfl, src := fun _ => hsrc, upc := fun _ => hupc
      sequence := fun _ => hseq, cnt := by simp [Machine.beginOp] }
  | wait p =>
    exact { h with
      phase := rfl, src := fun _ => hsrc, upc := fun _ => hupc, sequence := fun _ => hseq
      cnt := fun _ => rfl }

theorem complete {s t : State} (h : Indistinguishable s t) (hbusy : s.phase ≠ .idle) :
    Indistinguishable (complete s) (complete t) :=
  { h with
    phase := rfl, ready := by simp [h.src hbusy, h.ready]
    src := by simp, upc := by simp, sequence := by simp, cnt := by simp }

theorem seqOp {s t : State} (h : Indistinguishable s t) (hbusy : s.phase ≠ .idle) (u : Nat) :
    s.seqOp u = t.seqOp u := by
  rw [State.seqOp, h.sequence hbusy, State.seqOp]

theorem seqLen {s t : State} (h : Indistinguishable s t) (hbusy : s.phase ≠ .idle) :
    s.seqLen = t.seqLen := by
  rw [State.seqLen, h.sequence hbusy, State.seqLen]

theorem advance {s t : State} (h : Indistinguishable s t) (hbusy : s.phase ≠ .idle) :
    Indistinguishable (advance s) (advance t) := by
  have hupc : s.upc = t.upc := h.upc hbusy
  cases hop : s.seqOp (s.upc.toNat + 1) with
  | some op =>
    have hop' : t.seqOp (t.upc.toNat + 1) = some op := by rw [← hupc, ← h.seqOp hbusy, hop]
    have hnext : s.upc + 1#5 = t.upc + 1#5 := by rw [hupc]
    have hmoved : Indistinguishable { s with upc := s.upc + 1#5 } { t with upc := t.upc + 1#5 } :=
      { h with upc := fun _ => hnext }
    rw [advance_of_some hop, advance_of_some hop']
    exact hmoved.beginOp op (h.src hbusy) hnext (h.sequence hbusy)
  | none =>
    have hend : s.seqLen ≤ s.upc.toNat + 1 := (seqOp_eq_none_iff s _).1 hop
    have hend' : t.seqLen ≤ t.upc.toNat + 1 := by rwa [← hupc, ← h.seqLen hbusy]
    rw [advance_of_end hend, advance_of_end hend']
    exact h.complete hbusy

theorem count {s t : State} (h : Indistinguishable s t) :
    Indistinguishable { s with cnt := s.cnt - 1 } { t with cnt := t.cnt - 1 } :=
  { h with cnt := fun hp => congrArg (· - 1) (h.cnt hp) }

theorem waitStep {s t : State} (h : Indistinguishable s t) (hphase : s.phase = .wait) :
    Indistinguishable (waitStep s) (waitStep t) := by
  have hcntEq : s.cnt = t.cnt := h.cnt (.inr hphase)
  by_cases hcnt : s.cnt = 0
  · rw [waitStep_of_zero hcnt, waitStep_of_zero (hcntEq ▸ hcnt)]
    exact h.advance (by simp [hphase])
  · rw [waitStep_of_ne_zero hcnt, waitStep_of_ne_zero (hcntEq ▸ hcnt)]
    exact h.count

theorem nibRise {s t : State} (h : Indistinguishable s t) (hphase : s.phase = .rise) :
    Indistinguishable (nibRise s) (nibRise t) :=
  have hbusy : s.phase ≠ .idle := by simp [hphase]
  { h with
    lineE := rfl, phase := rfl, src := fun _ => h.src hbusy, upc := fun _ => h.upc hbusy
    sequence := fun _ => h.sequence hbusy, cnt := fun _ => by simp [h.build] }

theorem nibHigh {s t : State} (h : Indistinguishable s t) (hphase : s.phase = .high) :
    Indistinguishable (nibHigh s) (nibHigh t) := by
  have hbusy : s.phase ≠ .idle := by simp [hphase]
  have hcntEq : s.cnt = t.cnt := h.cnt (.inl hphase)
  have hlow : Indistinguishable { s with lineE := false } { t with lineE := false } :=
    { h with lineE := rfl }
  by_cases hcnt : s.cnt = 0
  · have hcnt' : t.cnt = 0 := hcntEq ▸ hcnt
    have hmoreIff : s.upc.toNat + 1 < s.seqLen ↔ t.upc.toNat + 1 < t.seqLen := by
      rw [h.upc hbusy, h.seqLen hbusy]
    by_cases hmore : s.upc.toNat + 1 < s.seqLen
    · rw [nibHigh_of_more hcnt hmore, nibHigh_of_more hcnt' (hmoreIff.1 hmore)]
      exact { hlow with
        phase := rfl, src := fun _ => h.src hbusy, upc := fun _ => h.upc hbusy
        sequence := fun _ => h.sequence hbusy, cnt := by simp }
    · rw [nibHigh_of_end hcnt hmore, nibHigh_of_end hcnt' (hmoreIff.not.1 hmore)]
      exact hlow.complete hbusy
  · rw [nibHigh_of_ne_zero hcnt, nibHigh_of_ne_zero (hcntEq ▸ hcnt)]
    exact h.count

theorem latch {s t : State} (h : Indistinguishable s t) (i : Instr) :
    Indistinguishable (latch i s) (latch i t) := by
  have hsrc := latch_src_congr i s t
  have hseq := latch_sequence_congr i h.build
  cases i with
  | init =>
    exact { h with
      ready := rfl, src := fun _ => hsrc, upc := fun _ => rfl, sequence := fun _ => hseq }
  | nibble | byte =>
    exact { h with src := fun _ => hsrc, upc := fun _ => rfl, sequence := fun _ => hseq }

theorem exec {s t : State} (h : Indistinguishable s t) (i : Instr) :
    ∃ s' t', exec i s = .next s' ∧ exec i t = .next t' ∧ Indistinguishable s' t' := by
  refine ⟨_, _, exec_eq i s, exec_eq i t, ?_⟩
  rw [← h.ready, ← h.build]
  split_ifs
  · exact (h.latch i).beginOp _ (latch_src_congr i s t) (by simp) (latch_sequence_congr i h.build)
  · exact h.reject .notReady

theorem accept {s t : State} (h : Indistinguishable s t) (w : CmdWord) :
    ∃ s' t', accept w s = .next s' ∧ accept w t = .next t' ∧ Indistinguishable s' t' := by
  cases hdec : decode w with
  | command i =>
    rw [accept_of_command hdec, accept_of_command hdec]
    exact h.exec i
  | illegal why =>
    exact ⟨_, _, accept_of_illegal hdec s, accept_of_illegal hdec t, h.reject .illegal⟩

/-- One edge keeps two machines indistinguishable. -/
theorem step {s t : State} (h : Indistinguishable s t) :
    ∃ s' t', step s = .next s' ∧ step t = .next t' ∧ Indistinguishable s' t' := by
  have hport : s.port = t.port := port_congr h.ports
  cases hrst : s.port.rst with
  | true =>
    refine ⟨_, _, step_of_rst hrst, step_of_rst (hport ▸ hrst), ?_⟩
    rw [resetAll_congr h.build h.ports]
    exact .refl _
  | false =>
    have hrst' : t.port.rst = false := hport ▸ hrst
    cases hphase : s.phase with
    | idle =>
      have hphase' := h.phase ▸ hphase
      cases hvalid : s.port.cmdValid with
      | true =>
        rw [step_of_offer hrst hphase hvalid, step_of_offer hrst' hphase' (hport ▸ hvalid), hport]
        exact h.afterSample.accept _
      | false =>
        exact ⟨_, _, step_of_noOffer hrst hphase hvalid,
          step_of_noOffer hrst' hphase' (hport ▸ hvalid), h.afterSample⟩
    | rise =>
      exact ⟨_, _, step_of_rise hrst hphase, step_of_rise hrst' (h.phase ▸ hphase),
        h.afterSample.nibRise hphase⟩
    | high =>
      exact ⟨_, _, step_of_high hrst hphase, step_of_high hrst' (h.phase ▸ hphase),
        h.afterSample.nibHigh hphase⟩
    | next =>
      exact ⟨_, _, step_of_next hrst hphase, step_of_next hrst' (h.phase ▸ hphase),
        h.afterSample.advance (by simp [hphase])⟩
    | wait =>
      exact ⟨_, _, step_of_wait hrst hphase, step_of_wait hrst' (h.phase ▸ hphase),
        h.afterSample.waitStep hphase⟩

theorem observe {s t : State} (h : Indistinguishable s t) (k : Nat) :
    observe k s = observe k t := by
  induction k generalizing s t with
  | zero => rfl
  | succ k ih =>
    obtain ⟨s', t', hs, ht, h'⟩ := h.step
    rw [observe_succ k hs, observe_succ k ht, port_congr h.ports, h'.outputs, ih h']

end Indistinguishable

/-- Settles O38: equal outputs make two IDLE machines indistinguishable, and every edge keeps them so. -/
theorem hiddenRegistersOfAnIdleMachineDoNotShow :
    Obligations.HiddenRegistersOfAnIdleMachineDoNotShow := by
  intro s t k hs ht hout hbuild hports
  exact (Indistinguishable.of_idle_outputs hs ht hout hbuild hports).observe k

end Sys2Proof.Machine
end

section
/-!
PROOFS. The latch stream is the nibbles of the started commands (R71): each edge moves the nibble it latches off
the pending ones and puts those of the command it starts behind them, and a run adds its edges up.
-/

namespace Sys2Proof.Machine

/-! ### The nibbles of the running sequence from an index on -/

/-- The nibbles of the running sequence from index `u` on, as `State.pending` counts them. -/
def State.nibblesFrom (s : State) (u : Nat) : List (Selector × Nibble) :=
  (s.sequence.drop u).filterMap nibbleOf

theorem nibblesFrom_of_some {s : State} {u : Nat} {op : MicroOp} (hop : s.seqOp u = some op) :
    s.nibblesFrom u = (nibbleOf op).toList ++ s.nibblesFrom (u + 1) := by
  obtain ⟨hu, rfl⟩ := List.getElem?_eq_some_iff.1 hop
  rw [State.nibblesFrom, List.drop_eq_getElem_cons hu, List.filterMap_cons, State.nibblesFrom]
  cases nibbleOf s.sequence[u] <;> rfl

theorem nibblesFrom_of_end {s : State} {u : Nat} (hend : ¬ u < s.seqLen) :
    s.nibblesFrom u = [] := by
  rw [State.nibblesFrom, List.drop_eq_nil_of_le (not_lt.1 hend), List.filterMap_nil]

/-- The sequence of a latched command sends the command's nibbles (R100, R120, R144). -/
theorem latch_nibblesFrom_zero (i : Instr) (s : State) :
    (latch i s).nibblesFrom 0 = nibblesOf i := by
  cases i with
  | init | byte => rfl
  | nibble rs n => simp [State.nibblesFrom, State.sequence, latch, hostSequence, nibbleOf, nibblesOf]

/-! ### The pending nibbles, by the phase -/

theorem pending_of_idle {s : State} (hphase : s.phase = .idle) : s.pending = [] := by
  simp [State.pending, hphase]

theorem pending_of_strobe {s : State} (hphase : s.phase = .rise ∨ s.phase = .high) :
    s.pending = s.nibblesFrom s.upc.toNat := by
  obtain hphase | hphase := hphase <;> simp [State.pending, hphase, State.nibblesFrom]

theorem pending_of_gap {s : State} (hphase : s.phase = .next ∨ s.phase = .wait) :
    s.pending = s.nibblesFrom (s.upc.toNat + 1) := by
  obtain hphase | hphase := hphase <;> simp [State.pending, hphase, State.nibblesFrom]

/-- Once the micro-op UPC points at has begun, its nibble is pending with those after it. -/
theorem pending_beginOp {s : State} {op : MicroOp} (hop : s.seqOp s.upc.toNat = some op) :
    (beginOp op s).pending = s.nibblesFrom s.upc.toNat := by
  cases op with
  | nib r v => exact pending_of_strobe (.inl rfl)
  | wait p =>
    rw [nibblesFrom_of_some hop]
    exact pending_of_gap (.inr rfl)

/-! ### The latch stream of one edge -/

/-- The nibble latched at the edge from `s` to `t`, if there is one. -/
def latchedNibble (n : Nat) (s t : State) : List (Selector × Nibble) :=
  (latchAt n s t).toList.map fun ev => (ev.rs, ev.d)

theorem latchedNibble_of_noFall (n : Nat) {s t : State} (h : s.lineE = true → t.lineE = true) :
    latchedNibble n s t = [] := by
  have hfall : ¬ (s.lineE = true ∧ t.lineE = false ∧ s.port.rst = false) := by
    rintro ⟨hE, hE', -⟩
    simp [h hE] at hE'
  rw [latchedNibble, latchAt, if_neg hfall]
  rfl

theorem latchedNibble_of_fall (n : Nat) {s t : State} (hE : s.lineE = true) (hE' : t.lineE = false)
    (hrst : s.port.rst = false) : latchedNibble n s t = [(t.lineRs, t.lineD)] := by
  rw [latchedNibble, latchAt, if_pos ⟨hE, hE', hrst⟩]
  rfl

/-- In HIGH the nibble on the lines is the first pending one (R43, R101). -/
theorem pending_of_high {s : State} (hcarry : s.LinesCarryOp) (hphase : s.phase = .high) :
    s.pending = (s.lineRs, s.lineD) :: s.nibblesFrom (s.upc.toNat + 1) := by
  rw [pending_of_strobe (.inr hphase), nibblesFrom_of_some (hcarry (.inr (.inl hphase)))]
  rfl

theorem pending_of_advances {s : State} (hphase : s.phase = .next ∨ (s.phase = .wait ∧ s.cnt = 0)) :
    s.pending = s.nibblesFrom (s.upc.toNat + 1) :=
  pending_of_gap (hphase.imp_right And.left)

/-- An edge that latches no nibble and starts no command leaves the pending ones as they are. -/
theorem latchStream_of_still (n : Nat) {s t : State} (hE : s.lineE = true → t.lineE = true)
    (hstart : s.started = none) (hpending : t.pending = s.pending) :
    latchedNibble n s t ++ t.pending = s.pending ++ s.started.toList.flatMap nibblesOf := by
  rw [latchedNibble_of_noFall n hE, hstart, hpending]
  exact (List.append_nil _).symm

/-- At a fall of E the first pending nibble is latched. -/
theorem latchStream_of_fall (n : Nat) {s t : State} (hinv : s.Inv) (hcarry : s.LinesCarryOp)
    (hrst : s.port.rst = false) (hphase : s.phase = .high) (hE' : t.lineE = false)
    (hlines : (t.lineRs, t.lineD) = (s.lineRs, s.lineD))
    (hpending : t.pending = s.nibblesFrom (s.upc.toNat + 1)) :
    latchedNibble n s t ++ t.pending = s.pending ++ s.started.toList.flatMap nibblesOf := by
  rw [latchedNibble_of_fall n (hinv.e_iff_high.2 hphase) hE' hrst, hlines, hpending,
    pending_of_high hcarry hphase, started_eq_none_of_busy (by simp [hphase])]
  exact (List.append_nil _).symm

/-- One edge of R71: what was pending and what starts is what is latched and what is then pending. -/
theorem step_latchStream (n : Nat) {s t : State} (hinv : s.Inv) (hcarry : s.LinesCarryOp)
    (hrst : s.port.rst = false) (h : step s = .next t) :
    latchedNibble n s t ++ t.pending = s.pending ++ s.started.toList.flatMap nibblesOf := by
  cases transition_of_step h with
  | reset hrst' => simp [hrst] at hrst'
  | quiet _ hphase hstart | illegal _ hphase hstart | notReady _ hphase hstart =>
    refine latchStream_of_still n (by simp) hstart ?_
    rw [pending_of_idle hphase]
    exact pending_of_idle hphase
  | @starts w i _ hphase hstart =>
    have hop : (latch i s.afterSample).seqOp (latch i s.afterSample).upc.toNat =
        some (firstOp s.build i) := by simpa using latch_seqOp_zero i s.afterSample
    rw [latchedNibble_of_noFall n (by simp), hstart, pending_of_idle hphase, pending_beginOp hop]
    simp [latch_nibblesFrom_zero]
  | rises _ hphase =>
    refine latchStream_of_still n (by simp) (started_eq_none_of_busy (by simp [hphase])) ?_
    rw [pending_of_strobe (.inl hphase)]
    exact pending_of_strobe (.inr rfl)
  | counts _ hbusy =>
    exact latchStream_of_still n (by simp) (started_eq_none_of_busy hbusy) rfl
  | falls _ hphase =>
    exact latchStream_of_fall n hinv hcarry hrst hphase rfl rfl (pending_of_gap (.inl rfl))
  | fallsLast _ hphase _ hend =>
    exact latchStream_of_fall n hinv hcarry hrst hphase rfl rfl (nibblesFrom_of_end hend).symm
  | begins _ hbusy hphase hop =>
    refine latchStream_of_still n (by simp) (started_eq_none_of_busy hbusy) ?_
    rw [pending_of_advances hphase, pending_beginOp (by rwa [upc_succ_toNat hop]),
      upc_succ_toNat hop]
    rfl
  | completes _ hbusy hphase hend =>
    refine latchStream_of_still n (by simp) (started_eq_none_of_busy hbusy) ?_
    rw [pending_of_advances hphase, nibblesFrom_of_end hend]
    exact pending_of_idle rfl

/-! ### The latch stream of a run -/

theorem latches_succ {s t : State} (n k : Nat) (h : step s = .next t) :
    latches n (k + 1) s = (latchAt n s t).toList ++ latches (n + 1) k t := by
  simp only [latches, h]

theorem startedDuring_succ {s t : State} (k : Nat) (h : step s = .next t) :
    startedDuring (k + 1) s = s.started.toList ++ startedDuring k t := by
  simp only [startedDuring, h]

/-- A stretch without reset is its first edge and the rest; past the listed inputs the host is quiet. -/
theorem noReset_succ {s t : State} {k : Nat} (hno : s.NoReset (k + 1)) (h : step s = .next t) :
    s.port.rst = false ∧ t.NoReset k := by
  obtain ⟨-, hports⟩ := step_build_ports h
  cases hs : s.ports with
  | nil => simp [State.port, hs, State.NoReset, hports, PortInput.quiet]
  | cons p ps => simpa [State.port, hs, State.NoReset, hports] using hno

/-- The conservation of nibbles over a run (R71): the edges' equations, added up. -/
theorem run_latchStream {k : Nat} (n : Nat) {s t : State} (hinv : s.Inv) (hcarry : s.LinesCarryOp)
    (hno : s.NoReset k) (h : run k s = .next t) :
    (latches n k s).map (fun ev => (ev.rs, ev.d)) ++ t.pending =
      s.pending ++ (startedDuring k s).flatMap nibblesOf := by
  induction k generalizing n s with
  | zero =>
    cases h
    exact (List.append_nil _).symm
  | succ k ih =>
    obtain ⟨u, hu⟩ := step_isNext s
    obtain ⟨hrst, hno'⟩ := noReset_succ hno hu
    have hrest := ih (n + 1) (step_keeps_inv hinv hu)
      (everyEdgeKeepsTheLinesOnTheCurrentNibble s u hcarry hu) hno' (by rwa [run_succ k hu] at h)
    rw [latches_succ n k hu, startedDuring_succ k hu, List.map_append, List.flatMap_append]
    calc latchedNibble n s u ++ (latches (n + 1) k u).map (fun ev => (ev.rs, ev.d)) ++ t.pending
        = latchedNibble n s u ++ u.pending ++ (startedDuring k u).flatMap nibblesOf := by
          rw [List.append_assoc, hrest, List.append_assoc]
      _ = s.pending ++ (s.started.toList.flatMap nibblesOf ++
            (startedDuring k u).flatMap nibblesOf) := by
          rw [step_latchStream n hinv hcarry hrst hu, List.append_assoc]

theorem pending_of_accepted {s : State} (hacc : s.accepted.isSome = true) : s.pending = [] := by
  obtain ⟨w, hw⟩ := Option.isSome_iff_exists.1 hacc
  obtain ⟨-, hphase⟩ := (accepted_eq_some_iff s w).1 hw
  exact pending_of_idle hphase

/-- Settles O48: the nibbles are conserved at each edge, hence over a run; a command is accepted in IDLE. -/
theorem latchStreamIsTheAcceptedCommandsNibbles :
    Obligations.LatchStreamIsTheAcceptedCommandsNibbles :=
  fun n _ _ _ hinv hcarry hno h => ⟨run_latchStream n hinv hcarry hno h, pending_of_accepted⟩

end Sys2Proof.Machine
end

section
/-!
PROOFS. The word of a command and the command of a word (R80 to R82, R88, R90): the decoder undoes the encoder,
a command has one word, and the opcode table's rows.
-/

namespace Sys2Proof

/-! ### Fields and words -/

/-- A word is put together from its own fields (R80). -/
@[simp] theorem toWord_fieldsOf (w : CmdWord) : (fieldsOf w).toWord = w := by
  apply BitVec.eq_of_getLsbD_eq
  intro i hi
  rw [toWord_getLsbD]
  split_ifs with hval hrs
  · simp [fieldsOf, hval]
  · simp [fieldsOf, hrs]
  · have hop : i - 9 < 3 ∧ 9 + (i - 9) = i := by omega
    simp [fieldsOf, hop]

/-- A byte with a zero high nibble is its low nibble, zero-extended (R100, R121). -/
theorem zext8_loNibble {b : Byte} (hhigh : hiNibble b = 0#4) : zext8 (loNibble b) = b := by
  revert b; decide

/-! ### The decoder and the encoder on fields -/

theorem decodeFields_encodeFields (i : Instr) : decodeFields (encodeFields i) = .command i := by
  cases i with
  | init => rfl
  | nibble rs n => simp [decodeFields, encodeFields]
  | byte rs b => simp [decodeFields, encodeFields]

/-- The fields of a command are the ones the encoder gives it (R81). -/
theorem encodeFields_of_decodeFields {f : CmdFields} {i : Instr}
    (h : decodeFields f = .command i) : encodeFields i = f := by
  obtain ⟨op, rs, val⟩ := f
  simp only [decodeFields] at h
  split_ifs at h with hop hclear hop hhigh hop <;> cases h <;> subst hop
  · obtain ⟨rfl, rfl⟩ := hclear
    rfl
  · rw [encodeFields, zext8_loNibble hhigh]
  · rfl

/-- Settles O1: the encoder's fields are the word's, and the decoder reads the command off them. -/
theorem decodeOfEncodeIsTheCommand : Obligations.DecodeOfEncodeIsTheCommand := by
  intro i
  rw [decode, encode, fieldsOf_toWord, decodeFields_encodeFields]

/-- Settles O2: the word's fields are the encoder's, and a word is put together from its fields. -/
theorem encodeOfDecodedWordIsTheWord : Obligations.EncodeOfDecodedWordIsTheWord := by
  intro w i h
  rw [encode, encodeFields_of_decodeFields h, toWord_fieldsOf]

/-! ### Each command by the word's bits (R84) -/

theorem decode_init_iff (w : CmdWord) :
    decode w = .command .init ↔ w.extractLsb' 9 3 = 0b001#3 ∧ w.extractLsb' 0 9 = 0#9 := by
  rw [decode_eq]
  split_ifs <;> simp_all

theorem decode_nibble_iff (w : CmdWord) :
    (∃ rs n, decode w = .command (.nibble rs n)) ↔
      w.extractLsb' 9 3 = 0b010#3 ∧ w.extractLsb' 4 4 = 0#4 := by
  rw [decode_eq]
  split_ifs <;> simp_all

theorem decode_byte_iff (w : CmdWord) :
    (∃ rs b, decode w = .command (.byte rs b)) ↔ w.extractLsb' 9 3 = 0b011#3 := by
  rw [decode_eq]
  split_ifs <;> simp_all

/-- The high nibble of a word's value field is the word's bits 7:4. -/
theorem hiNibble_value (w : CmdWord) : hiNibble (w.extractLsb' 0 8) = w.extractLsb' 4 4 :=
  BitVec.extractLsb'_extractLsb'_of_le (by decide)

theorem decode_of_nibble_bits {w : CmdWord} (hop : w.extractLsb' 9 3 = 0b010#3)
    (hhigh : hiNibble (w.extractLsb' 0 8) = 0#4) :
    decode w = .command (.nibble (.ofLevel (w.getLsbD 8)) (loNibble (w.extractLsb' 0 8))) := by
  simp [decode_eq, hop, ← hiNibble_value, hhigh]

theorem decode_of_byte_bits {w : CmdWord} (hop : w.extractLsb' 9 3 = 0b011#3) :
    decode w = .command (.byte (.ofLevel (w.getLsbD 8)) (w.extractLsb' 0 8)) := by
  simp [decode_eq, hop]

theorem decode_illegal_iff_no_command (w : CmdWord) :
    (∃ why, decode w = .illegal why) ↔
      ¬ decode w = .command .init ∧ ¬ (∃ rs n, decode w = .command (.nibble rs n)) ∧
      ¬ (∃ rs b, decode w = .command (.byte rs b)) := by
  cases decode w with
  | illegal why => simp
  | command i => cases i <;> simp

/-! ### The rows of the opcode table (R90) -/

theorem encode_matches_row (i : Instr) : encode i &&& rowMask i = rowMatch i := by
  cases i with
  | init => exact Laws.RowMatch.init
  | nibble rs n => exact Laws.RowMatch.nibble rs n
  | byte rs b => exact Laws.RowMatch.byte rs b

theorem decoded_matches_row {w : CmdWord} {i : Instr} (h : decode w = .command i) :
    w &&& rowMask i = rowMatch i := by
  rw [← encodeOfDecodedWordIsTheWord w i h, encode_matches_row]

/-- A word under a mask that keeps a whole field keeps the field. -/
theorem extractLsb'_of_and_eq {w mask m : CmdWord} {start len : Nat} (h : w &&& mask = m)
    (hmask : mask.extractLsb' start len = BitVec.allOnes len) :
    w.extractLsb' start len = m.extractLsb' start len := by
  rw [← h, BitVec.extractLsb'_and, hmask, BitVec.and_allOnes]

theorem decode_init_iff_row (w : CmdWord) :
    decode w = .command .init ↔ w &&& 0xFFF#12 = 0x200#12 := by
  rw [decode_eq_init_iff, show 0xFFF#12 = BitVec.allOnes 12 from rfl, BitVec.and_allOnes]

theorem decode_nibble_iff_row (w : CmdWord) :
    (∃ rs n, decode w = .command (.nibble rs n)) ↔ w &&& 0xEF0#12 = 0x400#12 := by
  constructor
  · rintro ⟨rs, n, h⟩
    exact decoded_matches_row h
  · intro h
    exact (decode_nibble_iff w).2 ⟨extractLsb'_of_and_eq h rfl, extractLsb'_of_and_eq h rfl⟩

theorem decode_byte_iff_row (w : CmdWord) :
    (∃ rs b, decode w = .command (.byte rs b)) ↔ w &&& 0xE00#12 = 0x600#12 := by
  constructor
  · rintro ⟨rs, b, h⟩
    exact decoded_matches_row h
  · intro h
    exact (decode_byte_iff w).2 (extractLsb'_of_and_eq h rfl)

/-- Settles O3: a command's word has its row's bits, and the bits under the mask are the fields the decoder
tests. -/
theorem wordIsCommandExactlyWhenItsRowMatches :
    Obligations.WordIsCommandExactlyWhenItsRowMatches := by
  intro w
  refine ⟨decode_init_iff_row w, decode_nibble_iff_row w, decode_byte_iff_row w, ?_⟩
  rw [decode_illegal_iff_no_command, decode_init_iff_row, decode_nibble_iff_row, decode_byte_iff_row]

/-- Settles O4: `decode_illegal_iff` says it. -/
theorem illegalWordsAreTheReservedOnes : Obligations.IllegalWordsAreTheReservedOnes :=
  decode_illegal_iff

/-- Settles O6: the fifteen words are closed terms, and the decoder evaluates each. -/
theorem decodeVectorsHold : Obligations.DecodeVectorsHold := by
  unfold Obligations.DecodeVectorsHold
  decide

/-! ### How many words there are of each kind (R85) -/

/-- The four kinds of R85, numbered. -/
def kindOf : Decoded → Nat
  | .command .init => 0
  | .command (.nibble _ _) => 1
  | .command (.byte _ _) => 2
  | .illegal _ => 3

/-- The numbers of the words of a kind. -/
def wordsOfKind (c : Nat) : Finset Nat :=
  {n ∈ Finset.range 4096 | kindOf (decode (BitVec.ofNat 12 n)) = c}

theorem countP_kind_eq_card (c : Nat) :
    ((List.range 4096).countP fun n => kindOf (decode (BitVec.ofNat 12 n)) == c) =
      (wordsOfKind c).card :=
  Nat.count_eq_card_filter_range (fun n => kindOf (decode (BitVec.ofNat 12 n)) = c) 4096

theorem kindOf_eq_zero_iff (d : Decoded) : kindOf d = 0 ↔ d = .command .init := by
  obtain (_ | _ | _) | _ := d <;> simp [kindOf]

theorem kindOf_eq_one_iff (d : Decoded) : kindOf d = 1 ↔ ∃ rs n, d = .command (.nibble rs n) := by
  obtain (_ | _ | _) | _ := d <;> simp [kindOf]

theorem kindOf_eq_two_iff (d : Decoded) : kindOf d = 2 ↔ ∃ rs b, d = .command (.byte rs b) := by
  obtain (_ | _ | _) | _ := d <;> simp [kindOf]

theorem kindOf_lt_four (d : Decoded) : kindOf d < 4 := by
  obtain (_ | _ | _) | _ := d <;> simp [kindOf]

theorem op_ofNat_eq_iff {n k : Nat} (hn : n < 4096) (hk : k < 8) :
    (BitVec.ofNat 12 n).extractLsb' 9 3 = BitVec.ofNat 3 k ↔ n / 512 = k := by
  rw [← BitVec.toNat_inj, BitVec.extractLsb'_toNat, BitVec.toNat_ofNat, Nat.shiftRight_eq_div_pow,
    BitVec.toNat_ofNat]
  omega

theorem high_ofNat_eq_zero_iff {n : Nat} (hn : n < 4096) :
    (BitVec.ofNat 12 n).extractLsb' 4 4 = 0#4 ↔ n / 16 % 16 = 0 := by
  rw [← BitVec.toNat_inj, BitVec.extractLsb'_toNat, BitVec.toNat_ofNat, Nat.shiftRight_eq_div_pow,
    BitVec.toNat_ofNat]
  omega

theorem mem_wordsOfKind {n c : Nat} :
    n ∈ wordsOfKind c ↔ n < 4096 ∧ kindOf (decode (BitVec.ofNat 12 n)) = c := by
  rw [wordsOfKind, Finset.mem_filter, Finset.mem_range]

theorem wordsOfKind_init : wordsOfKind 0 = {0x200} := by
  ext n
  rw [mem_wordsOfKind, kindOf_eq_zero_iff, decode_eq_init_iff, ← BitVec.toNat_inj,
    BitVec.toNat_ofNat, BitVec.toNat_ofNat, Finset.mem_singleton]
  omega

/-- The NIBBLE words: 16 with RS = 0 and 16 with RS = 1. -/
theorem wordsOfKind_nibble :
    wordsOfKind 1 = Finset.Ico 0x400 0x410 ∪ Finset.Ico 0x500 0x510 := by
  ext n
  rw [mem_wordsOfKind, kindOf_eq_one_iff, decode_nibble_iff, Finset.mem_union, Finset.mem_Ico,
    Finset.mem_Ico]
  by_cases hn : n < 4096
  · rw [op_ofNat_eq_iff hn (by decide), high_ofNat_eq_zero_iff hn]
    omega
  · simp only [hn, false_and, false_iff]
    omega

theorem wordsOfKind_byte : wordsOfKind 2 = Finset.Ico 0x600 0x800 := by
  ext n
  rw [mem_wordsOfKind, kindOf_eq_two_iff, decode_byte_iff, Finset.mem_Ico]
  by_cases hn : n < 4096
  · rw [op_ofNat_eq_iff hn (by decide)]
    omega
  · simp only [hn, false_and, false_iff]
    omega

/-- Every word is of one of the four kinds. -/
theorem sum_card_wordsOfKind : ∑ c ∈ Finset.range 4, (wordsOfKind c).card = 4096 := by
  have h := Finset.card_eq_sum_card_fiberwise (s := Finset.range 4096) (t := Finset.range 4)
    (f := fun n => kindOf (decode (BitVec.ofNat 12 n)))
    (fun n _ => Finset.mem_coe.2 (Finset.mem_range.2 (kindOf_lt_four _)))
  rw [Finset.card_range] at h
  exact h.symm

/-- Settles O5: the words of the three commands are intervals, and the other words are ILLEGAL. -/
theorem decodeClassesHaveTheCountsOfTheMap : Obligations.DecodeClassesHaveTheCountsOfTheMap := by
  have hinit : (wordsOfKind 0).card = 1 := by rw [wordsOfKind_init, Finset.card_singleton]
  have hnibble : (wordsOfKind 1).card = 32 := by
    have hdisjoint : Disjoint (Finset.Ico 0x400 0x410) (Finset.Ico 0x500 0x510) := by
      simp only [Finset.disjoint_left, Finset.mem_Ico]
      omega
    rw [wordsOfKind_nibble, Finset.card_union_of_disjoint hdisjoint, Nat.card_Ico, Nat.card_Ico]
  have hbyte : (wordsOfKind 2).card = 512 := by rw [wordsOfKind_byte, Nat.card_Ico]
  have hillegal : (wordsOfKind 3).card = 3551 := by
    have hsum := sum_card_wordsOfKind
    simp only [Finset.sum_range_succ, Finset.sum_range_zero] at hsum
    omega
  exact ⟨(countP_kind_eq_card 0).trans hinit, (countP_kind_eq_card 1).trans hnibble,
    (countP_kind_eq_card 2).trans hbyte, (countP_kind_eq_card 3).trans hillegal⟩

end Sys2Proof
end

section
/-!
PROOFS. The assembler's lines (R87 to R89): the word of each, and which lines are refused.
-/

namespace Sys2Proof

/-! ### The word of a command as the assembly formulas write it (R88) -/

/-- The three fields shifted into their places (R80). -/
theorem toWord_eq_or (f : CmdFields) :
    f.toWord = (f.op.setWidth 12 <<< 9) ||| (f.rs.bit.setWidth 12 <<< 8) ||| f.val.setWidth 12 :=
  (BitVec.setWidth_eq _).symm.trans BitVec.setWidth_append_append_eq_shiftLeft_setWidth_or

theorem encode_nibble (rs : Selector) (n : Nibble) :
    encode (.nibble rs n) = 0x400#12 ||| (rs.bit.setWidth 12 <<< 8) ||| n.setWidth 12 := by
  rw [encode, toWord_eq_or]
  simp only [encodeFields, zext8]
  rw [BitVec.setWidth_setWidth (by decide)]
  rfl

theorem encode_byte (rs : Selector) (b : Byte) :
    encode (.byte rs b) = 0x600#12 ||| (rs.bit.setWidth 12 <<< 8) ||| b.setWidth 12 := by
  rw [encode, toWord_eq_or]
  rfl

theorem assemble_nibble (rs : Selector) {n : Nat} (hn : n ≤ 15) :
    (Asm.nibble rs n).assemble =
      some (0x400#12 ||| (rs.bit.setWidth 12 <<< 8) ||| BitVec.ofNat 12 n) := by
  have hlt : n < 2 ^ 4 := by omega
  simp only [Asm.assemble, Asm.expand, hn, if_true, Option.map_some, encode_nibble]
  rw [BitVec.setWidth_ofNat_of_le_of_lt (by decide) hlt]

theorem assemble_byte (rs : Selector) {b : Nat} (hb : b ≤ 255) :
    (Asm.byte rs b).assemble =
      some (0x600#12 ||| (rs.bit.setWidth 12 <<< 8) ||| BitVec.ofNat 12 b) := by
  have hlt : b < 2 ^ 8 := by omega
  simp only [Asm.assemble, Asm.expand, hb, if_true, Option.map_some, encode_byte]
  rw [BitVec.setWidth_ofNat_of_le_of_lt (by decide) hlt]

/-- Settles O7: a command's word is its three fields shifted into place. -/
theorem commandWordsAreTheAssemblersFormulas : Obligations.CommandWordsAreTheAssemblersFormulas :=
  ⟨rfl, fun rs _ => assemble_nibble rs, fun rs _ => assemble_byte rs, rfl, encode_nibble, encode_byte⟩

/-! ### Pseudo-instructions (R89) -/

/-- `SETDD #a` is `BYTE CMD, #(0x80 | a)`. -/
theorem expand_setdd {a : Nat} (ha : a ≤ 0x7F) :
    (Asm.setdd a).expand = (Asm.byte .command (0x80 ||| a)).expand := by
  have hor : 0x80 ||| a < 2 ^ 8 := Nat.or_lt_two_pow (by decide) (by omega)
  have hle : 0x80 ||| a ≤ 255 := by omega
  simp only [Asm.expand, ha, hle, if_true, BitVec.ofNat_or]

theorem assemble_setdd {a : Nat} (ha : a ≤ 0x7F) :
    (Asm.setdd a).assemble = some (0x680#12 ||| BitVec.ofNat 12 a) := by
  have hor : 0x80 ||| a < 2 ^ 8 := Nat.or_lt_two_pow (by decide) (by omega)
  rw [Asm.assemble, expand_setdd ha]
  refine (assemble_byte .command (by omega)).trans ?_
  rw [BitVec.ofNat_or, ← BitVec.or_assoc]
  rfl

/-- `PUTC #c` is `BYTE DATA, #c`. -/
theorem expand_putc (c : Nat) : (Asm.putc c).expand = (Asm.byte .data c).expand := rfl

theorem assemble_putc {c : Nat} (hc : c ≤ 255) :
    (Asm.putc c).assemble = some (0x700#12 ||| BitVec.ofNat 12 c) :=
  assemble_byte .data hc

/-- Settles O8: the rows without an immediate are evaluated, the others are BYTE lines. -/
theorem pseudoInstructionsAreTheirBytes : Obligations.PseudoInstructionsAreTheirBytes :=
  ⟨rfl, rfl, rfl, rfl, rfl, rfl, rfl, rfl, rfl, rfl,
    fun _ ha => ⟨expand_setdd ha, assemble_setdd ha⟩, fun _ ha => if_neg (Nat.not_le.2 ha),
    fun c hc => ⟨expand_putc c, assemble_putc hc⟩⟩

/-- Settles O9: a line without an immediate is never refused, one with an immediate exactly by its range check. -/
theorem assemblerRefusesExactlyOutOfRangeImmediates :
    Obligations.AssemblerRefusesExactlyOutOfRangeImmediates := by
  intro a
  rw [Asm.assemble, Option.isSome_map]
  cases a with
  | init | fset4b2l | clear | dispOn | row1 | row2 => decide
  | nibble | byte | setdd | putc => simp [Asm.expand, Asm.wellFormed]

end Sys2Proof
end

section
/-!
PROOFS. What a command does at its acceptance edge, register by register, and the acceptance of any word (R84).
-/

namespace Sys2Proof.Machine

/-- A command that is not rejected is latched and its first micro-op begins (R84). -/
theorem exec_of_go {i : Instr} {s : State} (hgo : i = .init ∨ s.ready = true) :
    exec i s = .next (beginOp (firstOp s.build i) (latch i s)) := by
  rw [exec_eq, if_pos hgo]

theorem exec_of_notReady {i : Instr} {s : State} (hi : i ≠ .init) (hready : s.ready = false) :
    exec i s = .next (reject .notReady s) := by
  rw [exec_eq, if_neg (by simp [hi, hready])]

/-- Settles O15: INIT is never rejected. -/
theorem initBeginsThePowerOnWait : Obligations.InitBeginsThePowerOnWait :=
  fun _ => exec_of_go (.inl rfl)

/-- Settles O16: a NIBBLE that is not rejected is latched and its one nibble begins. -/
theorem nibbleIsLatchedAndSetUp : Obligations.NibbleIsLatchedAndSetUp :=
  fun _ _ _ hready => exec_of_go (.inr hready)

/-- Settles O17: a BYTE that is not rejected is latched and its high nibble begins. -/
theorem byteIsLatchedAndItsHighNibbleSetUp : Obligations.ByteIsLatchedAndItsHighNibbleSetUp :=
  fun _ _ _ hready => exec_of_go (.inr hready)

/-- Settles O14: the tests tell which command the word decodes to, and what that command does is O15 to O17. -/
theorem acceptFollowsItsPseudocode : Obligations.AcceptFollowsItsPseudocode := by
  intro w s op r v
  split_ifs with hinit hnibble hready hbyte hready
  · rw [accept_of_command ((decode_init_iff w).2 hinit), initBeginsThePowerOnWait]
  · obtain ⟨hop, hhigh⟩ := hnibble
    rw [accept_of_command (decode_of_nibble_bits hop hhigh), exec_of_notReady (by simp) hready]
    rfl
  · obtain ⟨hop, hhigh⟩ := hnibble
    have hval : (loNibble v).setWidth 8 = v := zext8_loNibble hhigh
    rw [accept_of_command (decode_of_nibble_bits hop hhigh),
      nibbleIsLatchedAndSetUp s _ _ (Bool.eq_true_of_not_eq_false hready), hval]
    rfl
  · rw [accept_of_command (decode_of_byte_bits hbyte), exec_of_notReady (by simp) hready]
    rfl
  · rw [accept_of_command (decode_of_byte_bits hbyte),
      byteIsLatchedAndItsHighNibbleSetUp s _ _ (Bool.eq_true_of_not_eq_false hready)]
  · have hnibble' : ¬ (w.extractLsb' 9 3 = 0b010#3 ∧ w.extractLsb' 4 4 = 0#4) := by
      rwa [← hiNibble_value]
    obtain ⟨why, hdec⟩ := (decode_illegal_iff_no_command w).2
      ⟨(decode_init_iff w).not.2 hinit, (decode_nibble_iff w).not.2 hnibble',
        (decode_byte_iff w).not.2 hbyte⟩
    rw [accept_of_illegal hdec]
    rfl

end Sys2Proof.Machine
end

section
/-!
PROOFS. The strobe of one nibble over a run: E rises at the edge after the levels are set up, CNT counts the high
periods, E falls in the one latch event (R102 to R107); and the NIBBLE that consists of one strobe (R100, R106).
-/

namespace Sys2Proof.Machine

/-! ### The edges of a strobe, and the commands that begin one -/

/-- Settles O23: each phase has one edge function, and `nibHigh` is the end of the strobe when CNT is 0. -/
theorem strobeEdgesRaiseHoldAndDropE : Obligations.StrobeEdgesRaiseHoldAndDropE := by
  intro s hrst
  refine ⟨fun hphase => step_of_rise hrst hphase, fun hphase hcnt => ?_,
    fun hphase hcnt hmore => ?_, fun hphase hcnt hend hsrc => ?_, fun hphase hcnt hend hsrc => ?_⟩ <;>
    rw [step_of_high hrst hphase]
  · rw [nibHigh_of_ne_zero (s := s.afterSample) hcnt]; rfl
  · rw [nibHigh_of_more (s := s.afterSample) hcnt hmore]
  · rw [nibHigh_of_end (s := s.afterSample) hcnt (not_lt.2 hend),
      complete_of_init (s := { s.afterSample with lineE := false }) hsrc]
  · rw [nibHigh_of_end (s := s.afterSample) hcnt (not_lt.2 hend),
      complete_of_host (s := { s.afterSample with lineE := false }) hsrc]

/-- Settles O19: an executed command is latched and its nibble begins, neither of which writes E, CNT, READY or
ERR; a rejected one writes ERR. -/
theorem nibbleAndByteFrame : Obligations.NibbleAndByteFrame := by
  intro i s t hi h
  have hinit : i ≠ .init := by obtain ⟨rs, n, rfl⟩ | ⟨rs, b, rfl⟩ := hi <;> simp
  cases hready : s.ready with
  | false =>
    rw [exec_of_notReady hinit hready] at h
    obtain rfl := Host.Outcome.next.inj h
    simp [hready, reject]
  | true =>
    rw [exec_of_go (.inr hready)] at h
    obtain rfl := Host.Outcome.next.inj h
    have hcnt : (beginOp (firstOp s.build i) (latch i s)).cnt = s.cnt := by
      obtain ⟨rs, n, rfl⟩ | ⟨rs, b, rfl⟩ := hi <;> rfl
    simp [hcnt, hinit, hready]

/-- The word of a command that is not rejected, offered in IDLE, latches the command and begins its first
micro-op (R84). -/
theorem step_of_offers_encode {s : State} {i : Instr} (hphase : s.phase = .idle)
    (hoffer : s.Offers (encode i)) (hgo : i = .init ∨ s.ready = true) :
    step s = .next (beginOp (firstOp s.build i) (latch i s.afterSample)) := by
  obtain ⟨hrst, hvalid, hword⟩ := hoffer
  have hdec : decode s.port.cmdWord = .command i := by rw [hword, decodeOfEncodeIsTheCommand]
  rw [stepRunsTheDecodedCommand s i hphase hrst hvalid hdec]
  exact exec_of_go hgo

/-! ### Runs in two parts: latch events, rises and the absence of reset -/

theorem latches_add {s u : State} {j : Nat} (n k : Nat) (h : run j s = .next u) :
    latches n (j + k) s = latches n j s ++ latches (n + j) k u := by
  induction j generalizing n s with
  | zero => cases h; simp [latches]
  | succ j ih =>
    obtain ⟨t, ht⟩ := step_isNext s
    rw [run_succ j ht] at h
    rw [Nat.add_right_comm, latches_succ n (j + k) ht, latches_succ n j ht, ih (n + 1) h,
      List.append_assoc, Nat.add_assoc n, Nat.add_comm 1 j]

theorem rises_succ {s t : State} (n k : Nat) (h : step s = .next t) :
    rises n (k + 1) s =
      (if s.lineE = false ∧ t.lineE = true then [n] else []) ++ rises (n + 1) k t := by
  simp only [rises, h]

theorem rises_add {s u : State} {j : Nat} (n k : Nat) (h : run j s = .next u) :
    rises n (j + k) s = rises n j s ++ rises (n + j) k u := by
  induction j generalizing n s with
  | zero => cases h; simp [rises]
  | succ j ih =>
    obtain ⟨t, ht⟩ := step_isNext s
    rw [run_succ j ht] at h
    rw [Nat.add_right_comm, rises_succ n (j + k) ht, rises_succ n j ht, ih (n + 1) h,
      List.append_assoc, Nat.add_assoc n, Nat.add_comm 1 j]

/-- Without a fall of E there is no latch event (R44). -/
theorem latchAt_of_noFall (n : Nat) {s t : State} (h : s.lineE = true → t.lineE = true) :
    latchAt n s t = none :=
  if_neg fun ⟨hE, hE', _⟩ => Bool.false_ne_true (hE'.symm.trans (h hE))

theorem port_rst_of_noReset {s : State} {k : Nat} (hno : s.NoReset (k + 1)) :
    s.port.rst = false := by
  obtain ⟨t, ht⟩ := step_isNext s
  exact (noReset_succ hno ht).1

theorem noReset_of_le {s : State} {j k : Nat} (hno : s.NoReset k) (hjk : j ≤ k) : s.NoReset j :=
  fun p hp => hno p (List.take_subset_take_left _ hjk hp)

/-- What is left of a stretch without reset after part of it has run. -/
theorem noReset_of_run {s u : State} {j k : Nat} (hno : s.NoReset (j + k))
    (h : run j s = .next u) : u.NoReset k := by
  induction j generalizing s with
  | zero => cases h; rwa [Nat.zero_add] at hno
  | succ j ih =>
    obtain ⟨t, ht⟩ := step_isNext s
    rw [Nat.add_right_comm] at hno
    exact ih (noReset_succ hno ht).2 (by rwa [run_succ j ht] at h)

/-! ### Counting: edges at which only CNT changes (R103, R143) -/

/-- `s` after `j` edges that counted CNT down. -/
def State.counted (s : State) (j : Nat) : State :=
  { s with cnt := s.cnt - j, ports := s.ports.drop j }

theorem counted_counted (s : State) (i j : Nat) :
    (s.counted i).counted j = s.counted (i + j) := by
  simp [State.counted, Nat.sub_sub]

/-- HIGH and WAIT count until CNT is 0. -/
theorem step_of_counts {s : State} (hrst : s.port.rst = false)
    (hphase : s.phase = .high ∨ s.phase = .wait) (hcnt : s.cnt ≠ 0) :
    step s = .next (s.counted 1) := by
  have hcounted : s.counted 1 = { s.afterSample with cnt := s.cnt - 1 } := by
    simp [State.counted, State.afterSample]
  rw [hcounted]
  obtain hphase | hphase := hphase
  · rw [step_of_high hrst hphase, nibHigh_of_ne_zero (s := s.afterSample) hcnt]; rfl
  · rw [step_of_wait hrst hphase, waitStep_of_ne_zero (s := s.afterSample) hcnt]; rfl

/-- Counting for `j` edges reaches the counted state, and E neither rises nor falls meanwhile. -/
theorem run_of_counts {s : State} {j : Nat} (hphase : s.phase = .high ∨ s.phase = .wait)
    (hj : j ≤ s.cnt) (hno : s.NoReset j) :
    run j s = .next (s.counted j) ∧ ∀ n, latches n j s = [] ∧ rises n j s = [] := by
  induction j generalizing s with
  | zero => exact ⟨rfl, fun _ => ⟨rfl, rfl⟩⟩
  | succ j ih =>
    have hstep : step s = .next (s.counted 1) :=
      step_of_counts (port_rst_of_noReset hno) hphase (by omega)
    obtain ⟨-, hno'⟩ := noReset_succ hno hstep
    obtain ⟨hrun, hevents⟩ := ih (s := s.counted 1) hphase (Nat.le_sub_of_add_le hj) hno'
    refine ⟨?_, fun n => ?_⟩
    · rw [run_succ j hstep, hrun, counted_counted, Nat.add_comm 1 j]
    · obtain ⟨hlatches, hrises⟩ := hevents (n + 1)
      have hnoFall : latchAt n s (s.counted 1) = none := latchAt_of_noFall n id
      rw [latches_succ n j hstep, rises_succ n j hstep, hlatches, hrises, hnoFall]
      simp [State.counted]

/-! ### The strobe of a nibble whose levels are set up (R102 to R105) -/

/-- The last of the high periods of a strobe that RISE state `s` begins: E falls at the next edge. -/
def State.lastHigh (s : State) : State :=
  { s with lineE := true, phase := .high, cnt := 0, ports := s.ports.drop s.build.nEPulse }

theorem counted_nibRise_eq_lastHigh {s : State} {m : Nat} (hm : s.build.nEPulse = m + 1) :
    (nibRise s.afterSample).counted m = s.lastHigh := by
  simp [State.counted, State.lastHigh, nibRise, State.afterSample, hm]

/-- The state after a strobe keeps the levels, and E is low. -/
theorem nibHigh_lastHigh_lines (s : State) :
    (nibHigh s.lastHigh.afterSample).lineE = false ∧
    (nibHigh s.lastHigh.afterSample).lineRs = s.lineRs ∧
    (nibHigh s.lastHigh.afterSample).lineD = s.lineD := by
  obtain ⟨hcnt, -⟩ | ⟨-, -, h⟩ | ⟨-, -, h⟩ := nibHigh_cases s.lastHigh.afterSample
  · exact absurd rfl hcnt
  · rw [h]; exact ⟨rfl, rfl, rfl⟩
  · rw [h]; exact ⟨rfl, rfl, rfl⟩

section Strobe

variable {s : State} (hphase : s.phase = .rise)
include hphase

/-- The `j + 1`-th high period: E has risen, and CNT has counted `j` edges. -/
theorem run_high {j : Nat} (hj : j < s.build.nEPulse) (hno : s.NoReset (j + 1)) :
    run (j + 1) s = .next ((nibRise s.afterSample).counted j) := by
  have hstep := step_of_rise (port_rst_of_noReset hno) hphase
  obtain ⟨-, hno'⟩ := noReset_succ hno hstep
  rw [run_succ j hstep]
  exact (run_of_counts (.inl rfl) (Nat.le_sub_one_of_lt hj) hno').1

/-- Up to the fall of E the PE is not IDLE. -/
theorem run_strobe_busy {j : Nat} (hj : j ≤ s.build.nEPulse) (hno : s.NoReset j) :
    ∃ u, run j s = .next u ∧ u.phase ≠ .idle := by
  cases j with
  | zero => exact ⟨s, rfl, by simp [hphase]⟩
  | succ j => exact ⟨_, run_high hphase hj hno, by simp [State.counted]⟩

variable (hN : 1 ≤ s.build.nEPulse) (hno : s.NoReset (s.build.nEPulse + 1))
include hN hno

theorem run_lastHigh : run s.build.nEPulse s = .next s.lastHigh := by
  obtain ⟨m, hm⟩ := Nat.exists_eq_add_of_le' hN
  rw [hm, run_high hphase (by omega) (noReset_of_le hno (by omega)), counted_nibRise_eq_lastHigh hm]

theorem lastHigh_port_rst : s.lastHigh.port.rst = false :=
  port_rst_of_noReset (noReset_of_run hno (run_lastHigh hphase hN hno))

theorem step_lastHigh : step s.lastHigh = .next (nibHigh s.lastHigh.afterSample) :=
  step_of_high (lastHigh_port_rst hphase hN hno) rfl

/-- The edges of a strobe lead to the state after its fall. -/
theorem run_strobe : run (s.build.nEPulse + 1) s = .next (nibHigh s.lastHigh.afterSample) := by
  rw [run_add _ 1 (run_lastHigh hphase hN hno), run_succ 0 (step_lastHigh hphase hN hno)]
  rfl

variable (hE : s.lineE = false)
include hE

/-- Through its last high period a strobe has made its rise and no latch event. -/
theorem events_until_lastHigh (n : Nat) :
    latches n s.build.nEPulse s = [] ∧ rises n s.build.nEPulse s = [n] := by
  obtain ⟨m, hm⟩ := Nat.exists_eq_add_of_le' hN
  have hstep := step_of_rise (port_rst_of_noReset hno) hphase
  obtain ⟨-, hno'⟩ := noReset_succ hno hstep
  have hnoFall : latchAt n s (nibRise s.afterSample) = none := latchAt_of_noFall n fun _ => rfl
  obtain ⟨-, hevents⟩ := run_of_counts (s := nibRise s.afterSample) (j := m) (.inl rfl)
    (by simp [hm]) (noReset_of_le hno' (by omega))
  obtain ⟨hlatches, hrises⟩ := hevents (n + 1)
  rw [hm, latches_succ n m hstep, rises_succ n m hstep, hlatches, hrises, hnoFall]
  simp [hE]

/-- A strobe makes one latch event, at its fall, with the levels that were set up (R104). -/
theorem latches_strobe (n : Nat) :
    latches n (s.build.nEPulse + 1) s =
      [{ edge := n + s.build.nEPulse, rs := s.lineRs, d := s.lineD }] := by
  obtain ⟨hfall, hrs, hd⟩ := nibHigh_lastHigh_lines s
  rw [latches_add n 1 (run_lastHigh hphase hN hno), (events_until_lastHigh hphase hN hno hE n).1,
    latches_succ _ 0 (step_lastHigh hphase hN hno),
    (latchAt_eq_some_iff _ _ _ _).2 ⟨⟨rfl, hfall, lastHigh_port_rst hphase hN hno⟩, rfl⟩, hrs, hd]
  rfl

/-- A strobe makes one rise of E, at its first edge (R104). -/
theorem rises_strobe (n : Nat) : rises n (s.build.nEPulse + 1) s = [n] := by
  rw [rises_add n 1 (run_lastHigh hphase hN hno), (events_until_lastHigh hphase hN hno hE n).2,
    rises_succ _ 0 (step_lastHigh hphase hN hno)]
  simp [State.lastHigh, rises]

end Strobe

/-- Settles O44: E is low in RISE by the invariant, and the edges to its fall are the strobe's. -/
theorem enablePulseIsExactlyNPeriods : Obligations.EnablePulseIsExactlyNPeriods := by
  intro s hinv hphase hN hno
  have hE : s.lineE = false := hinv.lineE_low (by simp [hphase])
  have hlatches := latches_strobe hphase hN hno hE 0
  rw [Nat.zero_add] at hlatches
  refine ⟨hE, rises_strobe hphase hN hno hE 0, hlatches, fun j hj hjN => ?_,
    ⟨_, run_strobe hphase hN hno, nibHigh_lastHigh_lines s⟩⟩
  obtain ⟨m, rfl⟩ := Nat.exists_eq_add_of_le' hj
  exact ⟨_, run_high hphase hjN (noReset_of_le hno (by omega)), rfl, rfl, rfl⟩

/-! ### The edge at which a nibble begins and its strobe: `N_E_PULSE + 2` edges (R106, R145) -/

section BeginAndStrobe

variable {s t : State} (hstep : step s = .next t) (hphase : t.phase = .rise)
  (hno : s.NoReset (t.build.nEPulse + 2))
include hstep hphase hno

theorem run_beginAndStrobe_busy {j : Nat} (hpos : 0 < j) (hj : j < t.build.nEPulse + 2) :
    ∃ u, run j s = .next u ∧ u.phase ≠ .idle := by
  obtain ⟨m, rfl⟩ := Nat.exists_eq_add_of_le' hpos
  rw [run_succ m hstep]
  exact run_strobe_busy hphase (by omega) (noReset_of_le (noReset_succ hno hstep).2 (by omega))

variable (hN : 1 ≤ t.build.nEPulse)
include hN

theorem run_beginAndStrobe :
    run (t.build.nEPulse + 2) s = .next (nibHigh t.lastHigh.afterSample) := by
  rw [run_succ _ hstep, run_strobe hphase hN (noReset_succ hno hstep).2]

variable (hE : t.lineE = false)
include hE

theorem latches_beginAndStrobe (hlow : s.lineE = false) (n : Nat) :
    latches n (t.build.nEPulse + 2) s =
      [{ edge := n + t.build.nEPulse + 1, rs := t.lineRs, d := t.lineD }] := by
  have hnoFall : latchAt n s t = none := latchAt_of_noFall n (by simp [hlow])
  rw [latches_succ n _ hstep, hnoFall, latches_strobe hphase hN (noReset_succ hno hstep).2 hE,
    Nat.add_right_comm n 1]
  rfl

theorem rises_beginAndStrobe (n : Nat) : rises n (t.build.nEPulse + 2) s = [n + 1] := by
  rw [rises_succ n _ hstep, rises_strobe hphase hN (noReset_succ hno hstep).2 hE]
  simp [hE]

end BeginAndStrobe

/-! ### A NIBBLE is its acceptance edge and one strobe (R106) -/

/-- The strobe of a host command's last nibble ends in IDLE (R41, R103). -/
theorem nibHigh_lastHigh_of_hostEnd {s : State} (hend : s.seqLen ≤ s.upc.toNat + 1)
    (hsrc : s.src = .host) :
    nibHigh s.lastHigh.afterSample =
      { s.lastHigh.afterSample with lineE := false, phase := .idle } := by
  rw [nibHigh_of_end (s := s.lastHigh.afterSample) rfl (not_lt.2 hend),
    complete_of_host (s := { s.lastHigh.afterSample with lineE := false }) hsrc]

/-- Settles O45: the acceptance edge begins the nibble with E low, and its strobe is the end of the sequence. -/
theorem nibbleRunsInNPlusTwoEdges : Obligations.NibbleRunsInNPlusTwoEdges := by
  intro s rs n hphase hE hready hN hoffer hno
  have hstep : step s = .next (beginNib rs n (latch (.nibble rs n) s.afterSample)) :=
    step_of_offers_encode hphase hoffer (.inr hready)
  have hlatches := latches_beginAndStrobe hstep rfl hno hN hE hE 0
  rw [Nat.zero_add] at hlatches
  have hrun := run_beginAndStrobe hstep rfl hno hN
  refine ⟨fun j hpos hj => run_beginAndStrobe_busy hstep rfl hno hpos hj, hlatches,
    rises_beginAndStrobe hstep rfl hno hN hE 0, _, hrun, ?_⟩
  rw [nibHigh_lastHigh_of_hostEnd le_rfl rfl]
  exact ⟨rfl, rfl, rfl, rfl, hready, rfl⟩

end Sys2Proof.Machine
end

section
/-!
PROOFS. The Byte Transmitter: a byte and its two nibbles (R121); and the BYTE, which is the strobe of its high
nibble and then that of its low nibble, both with the latched RS level (R120, R122, R123).
-/

namespace Sys2Proof

/-! ### The split of a byte (R121) -/

theorem hiNibble_eq_shiftRight (b : Byte) : hiNibble b = (b >>> 4).setWidth 4 := by
  simp [hiNibble, ← BitVec.toNat_inj]

theorem loNibble_eq_and (b : Byte) : loNibble b = (b &&& 0xF#8).setWidth 4 := by
  have hmask : (0xF#8).setWidth 4 = BitVec.allOnes 4 := rfl
  rw [BitVec.setWidth_and, hmask, BitVec.and_allOnes]
  simp [loNibble, ← BitVec.toNat_inj]

theorem toNat_eq_nibbles (b : Byte) :
    b.toNat = 16 * (hiNibble b).toNat + (loNibble b).toNat := by
  have hb : b.toNat < 256 := b.isLt
  simp only [hiNibble, loNibble, BitVec.extractLsb'_toNat, Nat.shiftRight_eq_div_pow]
  omega

/-- Settles O10: the nibbles as quotient and remainder of the byte by 16. -/
theorem byteIsItsTwoNibbles : Obligations.ByteIsItsTwoNibbles :=
  fun b => ⟨hiNibble_eq_shiftRight b, rfl, loNibble_eq_and b, rfl, toNat_eq_nibbles b⟩

end Sys2Proof

namespace Sys2Proof.Machine

/-! ### A run in two parts keeps what each part keeps -/

/-- What holds strictly inside a run, at its end, and strictly inside the run that follows holds strictly
inside the two together. -/
theorem run_inside_add {Q : State → Prop} {s u : State} {j k : Nat} (hrun : run j s = .next u)
    (hfirst : ∀ i, 0 < i → i < j → ∃ v, run i s = .next v ∧ Q v) (hu : Q u)
    (hrest : ∀ i, 0 < i → i < k → ∃ v, run i u = .next v ∧ Q v) :
    ∀ i, 0 < i → i < j + k → ∃ v, run i s = .next v ∧ Q v := by
  intro i hpos hi
  obtain hij | rfl | hji := lt_trichotomy i j
  · exact hfirst i hpos hij
  · exact ⟨u, hrun, hu⟩
  · obtain ⟨m, rfl⟩ := Nat.exists_eq_add_of_lt hji
    rw [Nat.add_assoc, run_add j (m + 1) hrun]
    exact hrest (m + 1) m.succ_pos (by omega)

/-! ### A strobe that is not its sequence's last (R103) -/

/-- RISE state `s` after its strobe, when the sequence goes on: E has fallen and the next micro-op is due. -/
def State.afterStrobe (s : State) : State :=
  { s.lastHigh.afterSample with lineE := false, phase := .next }

theorem nibHigh_lastHigh_of_more {s : State} (hmore : s.upc.toNat + 1 < s.seqLen) :
    nibHigh s.lastHigh.afterSample = s.afterStrobe :=
  nibHigh_of_more (s := s.lastHigh.afterSample) rfl hmore

/-- The begin edge and the strobe of a nibble that is not its sequence's last. -/
theorem run_beginAndStrobe_of_more {s t : State} (hstep : step s = .next t)
    (hphase : t.phase = .rise) (hno : s.NoReset (t.build.nEPulse + 2))
    (hN : 1 ≤ t.build.nEPulse) (hmore : t.upc.toNat + 1 < t.seqLen) :
    run (t.build.nEPulse + 2) s = .next t.afterStrobe := by
  rw [run_beginAndStrobe hstep hphase hno hN, nibHigh_lastHigh_of_more hmore]

/-- The edge after such a strobe begins the next micro-op (R40). -/
theorem step_afterStrobe {s : State} {op : MicroOp} (hrst : s.afterStrobe.port.rst = false)
    (hop : s.seqOp (s.upc.toNat + 1) = some op) :
    step s.afterStrobe = .next (beginOp op { s.afterStrobe.afterSample with upc := s.upc + 1#5 }) := by
  rw [step_of_next hrst rfl, advance_of_some (s := s.afterStrobe.afterSample) hop]
  rfl

/-! ### A BYTE is its acceptance edge, two strobes and the edge between them (R122) -/

/-- The BYTE accepted in `s`, with the levels of its high nibble set up. -/
def State.highNibble (s : State) (rs : Selector) (b : Byte) : State :=
  beginNib rs (hiNibble b) (latch (.byte rs b) s.afterSample)

/-- The BYTE accepted in `s`, with the levels of its low nibble set up: the RS level is the one latched at
acceptance (R123). -/
def State.lowNibble (s : State) (rs : Selector) (b : Byte) : State :=
  beginNib rs (loNibble b) { (s.highNibble rs b).afterStrobe.afterSample with upc := 1#5 }

/-- Settles O46: the run is cut after the fall that ends the high nibble's strobe, and each half is a nibble's
begin edge and strobe. -/
theorem byteRunsInTwoNPlusFourEdges : Obligations.ByteRunsInTwoNPlusFourEdges := by
  intro s rs b hphase hE hready hN hoffer hno
  have hlen : 2 * s.build.nEPulse + 4 = (s.build.nEPulse + 2) + (s.build.nEPulse + 2) := by omega
  rw [hlen] at hno ⊢
  have hnoHigh : s.NoReset (s.build.nEPulse + 2) := noReset_of_le hno (Nat.le_add_left _ _)
  have hbegin : step s = .next (s.highNibble rs b) :=
    step_of_offers_encode hphase hoffer (.inr hready)
  have hrunHigh : run (s.build.nEPulse + 2) s = .next (s.highNibble rs b).afterStrobe :=
    run_beginAndStrobe_of_more hbegin rfl hnoHigh hN Nat.one_lt_two
  have hnoLow : (s.highNibble rs b).afterStrobe.NoReset (s.build.nEPulse + 2) :=
    noReset_of_run hno hrunHigh
  have hnext : step (s.highNibble rs b).afterStrobe = .next (s.lowNibble rs b) :=
    step_afterStrobe (port_rst_of_noReset hnoLow) rfl
  have hrunLow := run_beginAndStrobe hnext rfl hnoLow hN
  have hlatchHigh : latches 0 (s.build.nEPulse + 2) s =
      [{ edge := 0 + s.build.nEPulse + 1, rs := rs, d := hiNibble b }] :=
    latches_beginAndStrobe hbegin rfl hnoHigh hN hE hE 0
  have hlatchLow : latches (s.build.nEPulse + 2) (s.build.nEPulse + 2)
      (s.highNibble rs b).afterStrobe =
        [{ edge := s.build.nEPulse + 2 + s.build.nEPulse + 1, rs := rs, d := loNibble b }] :=
    latches_beginAndStrobe hnext rfl hnoLow hN rfl rfl _
  have hriseHigh : rises 0 (s.build.nEPulse + 2) s = [1] :=
    rises_beginAndStrobe hbegin rfl hnoHigh hN hE 0
  have hriseLow : rises (s.build.nEPulse + 2) (s.build.nEPulse + 2)
      (s.highNibble rs b).afterStrobe = [s.build.nEPulse + 3] :=
    rises_beginAndStrobe hnext rfl hnoLow hN rfl _
  refine ⟨run_inside_add hrunHigh (fun _ => run_beginAndStrobe_busy hbegin rfl hnoHigh)
    (by simp [State.afterStrobe]) (fun _ => run_beginAndStrobe_busy hnext rfl hnoLow), ?_, ?_,
    _, (run_add _ _ hrunHigh).trans hrunLow, ?_⟩
  · have hedge : s.build.nEPulse + 2 + s.build.nEPulse + 1 = 2 * s.build.nEPulse + 3 := by omega
    rw [latches_add 0 _ hrunHigh, hlatchHigh, Nat.zero_add, Nat.zero_add, hlatchLow, hedge]
    rfl
  · rw [rises_add 0 _ hrunHigh, hriseHigh, Nat.zero_add, hriseLow]
    rfl
  · rw [nibHigh_lastHigh_of_hostEnd le_rfl rfl]
    exact ⟨rfl, rfl, rfl, rfl, hready, rfl⟩

end Sys2Proof.Machine
end

section
/-!
PROOFS. The Controller Initialization Sequence: the ROM's table (R140), the frame of INIT (R144), and the run of
INIT as the begin edges, waits and strobes of its micro-ops, one after the other (R145, R152, R153).
-/

namespace Sys2Proof.Machine

/-! ### INIT_ROM and the acceptance edge -/

/-- Settles O22: the sequence of INIT is the ROM of the build. -/
theorem initRomHoldsTheTable : Obligations.InitRomHoldsTheTable := by
  intro s hsrc
  unfold State.seqOp
  rw [sequence_of_init hsrc]
  exact ⟨rfl, rfl, rfl, rfl, rfl, rfl, rfl, rfl, rfl, rfl, rfl, rfl, rfl, rfl, rfl, rfl, rfl, rfl⟩

/-- Settles O18: INIT is never rejected; beginning its wait writes none of these. -/
theorem initFrame : Obligations.InitFrame := by
  intro s t h
  rw [initBeginsThePowerOnWait] at h
  obtain rfl := Host.Outcome.next.inj h
  exact ⟨rfl, rfl, rfl, rfl, rfl, rfl, rfl, rfl, rfl⟩

/-! ### The edges and the latch events of a list of micro-ops, as R145's table counts them -/

/-- The edges from a micro-op's begin edge to the next one's (R145). -/
def opEdges (P : Params) : MicroOp → Nat
  | .nib _ _ => P.nEPulse + 2
  | .wait p => p

/-- The latch event of a micro-op begun at edge `b` (R104, R145). -/
def opLatches (P : Params) (b : Nat) : MicroOp → List LatchEvent
  | .nib r v => [{ edge := b + P.nEPulse + 1, rs := r, d := v }]
  | .wait _ => []

/-- The edges of micro-ops that run one after the other (R145). -/
def sequenceEdges (P : Params) : List MicroOp → Nat
  | [] => 0
  | op :: ops => opEdges P op + sequenceEdges P ops

/-- The latch events of micro-ops of which the first begins at edge `b`. -/
def sequenceLatches (P : Params) (b : Nat) : List MicroOp → List LatchEvent
  | [] => []
  | op :: ops => opLatches P b op ++ sequenceLatches P (b + opEdges P op) ops

/-- The ROM's edges are the sum of R145. -/
theorem sequenceEdges_initRom (P : Params) : sequenceEdges P (initRom P) = dInit P := by
  simp only [initRom, sequenceEdges, opEdges, dInit]
  omega

/-- The ROM's latch events are the table of R145. -/
theorem sequenceLatches_initRom (P : Params) (a : Nat) :
    sequenceLatches P a (initRom P) = initLatches P a := by
  simp only [initRom, sequenceLatches, opLatches, opEdges, initLatches, List.nil_append,
    List.cons_append, List.cons.injEq, LatchEvent.mk.injEq, true_and, and_true]
  omega

/-! ### A stretch of a running INIT -/

/-- INIT is running: a command is in progress and READY is 0 (R144). -/
def State.Initializing (s : State) : Prop := s.phase ≠ .idle ∧ s.ready = false

/-- The edges from `s` run exactly the micro-ops `ops` of an INIT: it is in progress between them, and E rises
and falls as R145 has it. -/
structure Plays (P : Params) (ops : List MicroOp) (s : State) : Prop where
  inside : ∀ j, 0 < j → j < sequenceEdges P ops → ∃ u, run j s = .next u ∧ u.Initializing
  latches_eq : ∀ n, latches n (sequenceEdges P ops) s = sequenceLatches P n ops
  rises_eq : ∀ n, rises n (sequenceEdges P ops) s =
    (sequenceLatches P n ops).map fun ev => ev.edge - P.nEPulse

/-- A micro-op's edges, then those of the micro-ops after it. -/
theorem Plays.cons {P : Params} {op : MicroOp} {ops : List MicroOp} {s u : State}
    (hop : Plays P [op] s) (hrun : run (opEdges P op) s = .next u) (hu : u.Initializing)
    (hops : Plays P ops u) : Plays P (op :: ops) s where
  inside := run_inside_add hrun hop.inside hu hops.inside
  latches_eq n := by
    have hfirst : latches n (opEdges P op) s = opLatches P n op := by
      simpa [sequenceEdges, sequenceLatches] using hop.latches_eq n
    simp only [sequenceEdges, sequenceLatches]
    rw [latches_add n _ hrun, hfirst, hops.latches_eq]
  rises_eq n := by
    have hfirst : rises n (opEdges P op) s =
        (opLatches P n op).map fun ev => ev.edge - P.nEPulse := by
      simpa [sequenceEdges, sequenceLatches] using hop.rises_eq n
    simp only [sequenceEdges, sequenceLatches, List.map_append]
    rw [rises_add n _ hrun, hfirst, hops.rises_eq]

/-! ### The edges of one nibble -/

/-- READY is not written from the set-up of a nibble to its last high period. -/
theorem run_strobe_initializing {s : State} {j : Nat} (hphase : s.phase = .rise)
    (hready : s.ready = false) (hj : j ≤ s.build.nEPulse) (hno : s.NoReset j) :
    ∃ u, run j s = .next u ∧ u.Initializing := by
  cases j with
  | zero => exact ⟨s, rfl, by simp [hphase], hready⟩
  | succ j => exact ⟨_, run_high hphase hj hno, by simp [State.counted], hready⟩

theorem plays_nib {P : Params} {r : Selector} {v : Nibble} {s t : State}
    (hstep : step s = .next (beginNib r v t)) (hbuild : t.build = P) (hN : 1 ≤ P.nEPulse)
    (hlow : s.lineE = false) (hE : t.lineE = false) (hready : t.ready = false)
    (hno : s.NoReset (P.nEPulse + 2)) : Plays P [.nib r v] s := by
  subst hbuild
  refine ⟨fun j hpos hj => ?_, latches_beginAndStrobe hstep rfl hno hN hE hlow, fun n => ?_⟩
  · simp only [sequenceEdges, opEdges] at hj
    obtain ⟨m, rfl⟩ := Nat.exists_eq_add_of_le' hpos
    rw [run_succ m hstep]
    exact run_strobe_initializing rfl hready (show m ≤ t.build.nEPulse by omega)
      (noReset_of_le (noReset_succ hno hstep).2 (by omega))
  · have hrise : n + t.build.nEPulse + 1 - t.build.nEPulse = n + 1 := by omega
    simp only [sequenceLatches, opLatches, List.append_nil, List.map_cons, List.map_nil, hrise]
    exact rises_beginAndStrobe hstep rfl hno hN hE n

/-! ### The edges of one wait (R142, R143) -/

/-- The begin edge of a wait, and `j` edges of it. -/
theorem run_beginAndCount {p j : Nat} {s t : State} (hstep : step s = .next (beginWait p t))
    (hj : j < p) (hno : s.NoReset (j + 1)) :
    run (j + 1) s = .next ((beginWait p t).counted j) := by
  rw [run_succ j hstep]
  exact (run_of_counts (.inr rfl) (Nat.le_sub_one_of_lt hj) (noReset_succ hno hstep).2).1

/-- With E low a wait makes no latch event and no rise. -/
theorem events_beginAndCount {p j : Nat} {s t : State} (hstep : step s = .next (beginWait p t))
    (hj : j < p) (hlow : s.lineE = false) (hE : t.lineE = false) (hno : s.NoReset (j + 1))
    (n : Nat) : latches n (j + 1) s = [] ∧ rises n (j + 1) s = [] := by
  have hnoFall : latchAt n s (beginWait p t) = none := latchAt_of_noFall n (by simp [hlow])
  obtain ⟨hlatches, hrises⟩ := (run_of_counts (s := beginWait p t) (.inr rfl)
    (Nat.le_sub_one_of_lt hj) (noReset_succ hno hstep).2).2 (n + 1)
  rw [latches_succ n j hstep, rises_succ n j hstep, hlatches, hrises, hnoFall]
  simp [hE]

theorem plays_wait {P : Params} {p : Nat} {s t : State} (hstep : step s = .next (beginWait p t))
    (hp : 1 ≤ p) (hlow : s.lineE = false) (hE : t.lineE = false) (hready : t.ready = false)
    (hno : s.NoReset p) : Plays P [.wait p] s := by
  obtain ⟨m, rfl⟩ := Nat.exists_eq_add_of_le' hp
  have hevents := events_beginAndCount hstep m.lt_succ_self hlow hE hno
  refine ⟨fun j hpos hj => ?_, fun n => (hevents n).1, fun n => (hevents n).2⟩
  obtain ⟨i, rfl⟩ := Nat.exists_eq_add_of_le' hpos
  have hlt : i + 1 < m + 1 := hj
  exact ⟨_, run_beginAndCount hstep (by omega) (noReset_of_le hno hlt.le),
    by simp [State.counted], hready⟩

/-! ### From one micro-op to the next -/

/-- The state after the edges of a micro-op begun from `t` that is not its sequence's last: the next one is
due. -/
def State.afterOp (t : State) : MicroOp → State
  | .nib r v => (beginNib r v t).afterStrobe
  | .wait p => (beginWait p t).counted (p - 1)

/-- The state from which the micro-op after `op` begins (R40). -/
def State.nextOp (t : State) (op : MicroOp) : State :=
  { (t.afterOp op).afterSample with upc := t.upc + 1#5 }

theorem afterOp_advances (op : MicroOp) (t : State) :
    (t.afterOp op).phase = .next ∨ ((t.afterOp op).phase = .wait ∧ (t.afterOp op).cnt = 0) := by
  cases op with
  | nib r v => exact .inl rfl
  | wait p => exact .inr ⟨rfl, Nat.sub_self _⟩

theorem afterOp_lineE (op : MicroOp) {t : State} (hE : t.lineE = false) :
    (t.afterOp op).lineE = false := by
  cases op with
  | nib r v => rfl
  | wait p => exact hE

/-- The edge after a micro-op begins the next one (R40). -/
theorem step_afterOp {op op' : MicroOp} {t : State} (hrst : (t.afterOp op).port.rst = false)
    (hop' : t.seqOp (t.upc.toNat + 1) = some op') :
    step (t.afterOp op) = .next (beginOp op' (t.nextOp op)) := by
  have hnext : (t.afterOp op).afterSample.seqOp ((t.afterOp op).afterSample.upc.toNat + 1) =
      some op' := by cases op <;> exact hop'
  rw [step_of_advances hrst (afterOp_advances op t), advance_of_some hnext]
  cases op <;> rfl

/-- No edge count of the ROM is 0 in a build whose counts are positive. -/
theorem opEdges_initRom_pos {P : Params} {op : MicroOp} (hcounts : P.CountsPositive)
    (hmem : op ∈ initRom P) : 1 ≤ opEdges P op := by
  cases op with
  | nib r v => exact Nat.le_add_left _ _
  | wait p =>
    simp only [initRom, List.mem_cons, MicroOp.wait.injEq, reduceCtorEq, List.not_mem_nil, false_or,
      or_false] at hmem
    simp only [opEdges]
    omega

/-- From `t` the next micro-op of the INIT accepted in `a` begins, and `ops` are the micro-ops from it on. E is
low, READY is 0, and what INIT does not write is as it was in `a` (R144). -/
structure InitAt (a t : State) (ops : List MicroOp) : Prop where
  rest_eq  : (initRom a.build).drop t.upc.toNat = ops
  src_eq   : t.src = .init
  ready_eq : t.ready = false
  lineE_eq : t.lineE = false
  build_eq : t.build = a.build
  err_eq   : t.err = a.err
  hrs_eq   : t.hrs = a.hrs
  hval_eq  : t.hval = a.hval
  hlen_eq  : t.hlen = a.hlen

namespace InitAt

variable {a s t : State} {op op' : MicroOp} {ops : List MicroOp}

theorem sequence_eq (h : InitAt a t ops) : t.sequence = initRom a.build := by
  rw [sequence_of_init h.src_eq, h.build_eq]

theorem seqLen_eq (h : InitAt a t ops) : t.seqLen = 17 := by
  rw [State.seqLen, h.sequence_eq, initRom_length]

/-- The micro-op after the current one is the second of those to come. -/
theorem seqOp_succ (h : InitAt a t (op :: op' :: ops)) :
    t.seqOp (t.upc.toNat + 1) = some op' := by
  rw [State.seqOp, h.sequence_eq, ← List.getElem?_drop, h.rest_eq]
  rfl

theorem nextOp (h : InitAt a t (op :: op' :: ops)) : InitAt a (t.nextOp op) (op' :: ops) := by
  have hupc : (t.nextOp op).upc.toNat = t.upc.toNat + 1 := upc_succ_toNat h.seqOp_succ
  have hrest : (initRom a.build).drop (t.nextOp op).upc.toNat = op' :: ops := by
    rw [hupc, ← List.drop_drop, h.rest_eq]
    rfl
  have hE : (t.nextOp op).lineE = false := afterOp_lineE op h.lineE_eq
  cases op <;> exact { h with rest_eq := hrest, lineE_eq := hE }

theorem afterOp_initializing (h : InitAt a t ops) (op : MicroOp) :
    (t.afterOp op).Initializing := by
  refine ⟨phase_ne_of_advances (afterOp_advances op t) (by decide) (by decide), ?_⟩
  rw [← h.ready_eq]
  cases op <;> rfl

theorem opEdges_pos (h : InitAt a t (op :: ops)) (hcounts : a.build.CountsPositive) :
    1 ≤ opEdges a.build op :=
  opEdges_initRom_pos hcounts
    (List.mem_of_mem_drop (h.rest_eq ▸ List.mem_cons_self : op ∈ (initRom a.build).drop _))

/-- The last micro-op to come is the ROM's last, `NIB(0, 0xC)` at index 16. -/
theorem last (h : InitAt a t [op]) : t.upc = 16#5 ∧ op = .nib .command 0xC#4 := by
  have hlen := congrArg List.length h.rest_eq
  rw [List.length_drop, initRom_length, List.length_singleton] at hlen
  have hupc : t.upc.toNat = 16 := by omega
  have hrest := h.rest_eq
  rw [hupc] at hrest
  exact ⟨BitVec.eq_of_toNat_eq hupc, (List.singleton_inj.1 hrest).symm⟩

/-- The edges of the micro-op to come are as R145 has them. -/
theorem plays_op (h : InitAt a t (op :: ops)) (hstep : step s = .next (beginOp op t))
    (hlow : s.lineE = false) (hcounts : a.build.CountsPositive)
    (hno : s.NoReset (opEdges a.build op)) : Plays a.build [op] s := by
  have hpos := h.opEdges_pos hcounts
  cases op with
  | nib r v => exact plays_nib hstep h.build_eq hcounts.1 hlow h.lineE_eq h.ready_eq hno
  | wait p => exact plays_wait hstep hpos hlow h.lineE_eq h.ready_eq hno

theorem run_op (h : InitAt a t (op :: op' :: ops)) (hstep : step s = .next (beginOp op t))
    (hcounts : a.build.CountsPositive) (hno : s.NoReset (opEdges a.build op)) :
    run (opEdges a.build op) s = .next (t.afterOp op) := by
  have hpos := h.opEdges_pos hcounts
  cases op with
  | nib r v =>
    rw [← h.build_eq] at hcounts hno ⊢
    exact run_beginAndStrobe_of_more hstep rfl hno hcounts.1 (seqOp_some_lt h.seqOp_succ)
  | wait p =>
    obtain ⟨m, rfl⟩ := Nat.exists_eq_add_of_le' hpos
    exact run_beginAndCount hstep m.lt_succ_self hno

end InitAt

/-! ### The whole of INIT -/

/-- The state after the strobe of INIT's last nibble, begun from `t`: IDLE, and READY is 1 (R41). -/
def State.initDone (t : State) : State :=
  { (beginNib .command 0xC#4 t).lastHigh.afterSample with
    lineE := false, phase := .idle, ready := true }

/-- The strobe of INIT's last nibble ends in IDLE and sets READY (R41, R103). -/
theorem nibHigh_lastHigh_of_initEnd {s : State} (hend : s.seqLen ≤ s.upc.toNat + 1)
    (hsrc : s.src = .init) :
    nibHigh s.lastHigh.afterSample =
      { s.lastHigh.afterSample with lineE := false, phase := .idle, ready := true } := by
  rw [nibHigh_of_end (s := s.lastHigh.afterSample) rfl (not_lt.2 hend),
    complete_of_init (s := { s.lastHigh.afterSample with lineE := false }) hsrc]

namespace InitAt

theorem run_last {a s t : State} {op : MicroOp} (h : InitAt a t [op])
    (hstep : step s = .next (beginOp op t)) (hcounts : a.build.CountsPositive)
    (hno : s.NoReset (opEdges a.build op)) :
    run (opEdges a.build op) s = .next t.initDone := by
  obtain ⟨hupc, rfl⟩ := h.last
  have hend : t.seqLen ≤ t.upc.toNat + 1 := by simp [hupc, h.seqLen_eq]
  rw [← h.build_eq] at hcounts hno ⊢
  exact (run_beginAndStrobe hstep rfl hno hcounts.1).trans
    (congrArg _ (nibHigh_lastHigh_of_initEnd hend h.src_eq))

/-- The edges from a micro-op of the ROM to the end of INIT: that micro-op's, after which the next one is due, and
then those of the rest. -/
theorem plays {a s t : State} {op : MicroOp} {ops : List MicroOp} (h : InitAt a t (op :: ops))
    (hstep : step s = .next (beginOp op t)) (hlow : s.lineE = false)
    (hcounts : a.build.CountsPositive) (hno : s.NoReset (sequenceEdges a.build (op :: ops))) :
    Plays a.build (op :: ops) s ∧ ∃ u last, InitAt a u [last] ∧
      run (sequenceEdges a.build (op :: ops)) s = .next u.initDone := by
  induction ops generalizing op s t with
  | nil => exact ⟨h.plays_op hstep hlow hcounts hno, t, op, h, h.run_last hstep hcounts hno⟩
  | cons op' ops ih =>
    have hnoOp : s.NoReset (opEdges a.build op) := noReset_of_le hno (Nat.le_add_right _ _)
    have hrun : run (opEdges a.build op) s = .next (t.afterOp op) := h.run_op hstep hcounts hnoOp
    have hnoRest : (t.afterOp op).NoReset (sequenceEdges a.build (op' :: ops)) :=
      noReset_of_run hno hrun
    have hedges : 1 ≤ sequenceEdges a.build (op' :: ops) :=
      (h.nextOp.opEdges_pos hcounts).trans (Nat.le_add_right _ _)
    have hnext : step (t.afterOp op) = .next (beginOp op' (t.nextOp op)) :=
      step_afterOp (port_rst_of_noReset (noReset_of_le hnoRest hedges)) h.seqOp_succ
    obtain ⟨hrest, u, last, hu, hrunRest⟩ :=
      ih h.nextOp hnext (afterOp_lineE op h.lineE_eq) hnoRest
    exact ⟨(h.plays_op hstep hlow hcounts hnoOp).cons hrun (h.afterOp_initializing op) hrest,
      u, last, hu, (run_add _ _ hrun).trans hrunRest⟩

end InitAt

/-- Settles O47: the acceptance edge begins the ROM's first micro-op, and the edges from there are the ROM's. -/
theorem initRunsItsTenNibbles : Obligations.InitRunsItsTenNibbles := by
  intro s hphase hE hcounts hoffer hno
  have hstep : step s = .next (beginOp (.wait s.build.nPowerOn) (latch .init s.afterSample)) :=
    step_of_offers_encode (i := .init) hphase hoffer (.inl rfl)
  have hat : InitAt s (latch .init s.afterSample) (initRom s.build) :=
    ⟨rfl, rfl, rfl, hE, rfl, rfl, rfl, rfl, rfl⟩
  rw [← sequenceEdges_initRom] at hno ⊢
  rw [← sequenceLatches_initRom]
  obtain ⟨hplays, u, last, hu, hrun⟩ := InitAt.plays hat hstep hE hcounts hno
  refine ⟨fun j hpos hj => ?_, hplays.latches_eq 0, hplays.rises_eq 0, _, hrun, rfl, rfl, hu.src_eq,
    hu.last.1, rfl, rfl, rfl, hu.err_eq, hu.hrs_eq, hu.hval_eq, hu.hlen_eq⟩
  obtain ⟨v, hv, hbusy, hready⟩ := hplays.inside j hpos hj
  exact ⟨v, hv, hbusy, hready, accepted_eq_none_of_busy hbusy⟩

end Sys2Proof.Machine
end

section
/-!
PROOFS. The two ways an edge in IDLE starts nothing: the offered word is rejected (R170 to R172, R174), or no word
is offered (R186, R213).
-/

namespace Sys2Proof.Machine

/-! ### Rejection -/

/-- Settles O20: an illegal word is rejected before READY is read, a NIBBLE or BYTE by READY, and INIT runs. -/
theorem rejectionWritesOnlyErr : Obligations.RejectionWritesOnlyErr := by
  intro s hphase hrst hvalid
  refine ⟨fun hillegal => ?_, fun i hdec hi hready => ?_, fun hdec => ?_⟩
  · obtain ⟨why, hdec⟩ := (decode_illegal_iff _).2 hillegal
    rw [step_of_offer hrst hphase hvalid, accept_of_illegal hdec]
    rfl
  · rw [stepRunsTheDecodedCommand s i hphase hrst hvalid hdec,
      exec_of_notReady (s := s.afterSample) hi hready]
    rfl
  · rw [stepRunsTheDecodedCommand s .init hphase hrst hvalid hdec, initBeginsThePowerOnWait]
    exact ⟨_, rfl, rfl, rfl⟩

/-! ### Edges without an offer -/

/-- A quiet stretch is its first edge and the rest; past the listed inputs the host is quiet (log 1). -/
theorem quietFor_succ {s : State} {k : Nat} (hquiet : s.QuietFor (k + 1)) :
    s.port.rst = false ∧ s.port.cmdValid = false ∧ s.afterSample.QuietFor k := by
  cases hports : s.ports with
  | nil => simp [State.port, State.QuietFor, hports, PortInput.quiet]
  | cons p ps => simpa [State.port, State.QuietFor, hports, and_assoc] using hquiet

/-- Settles O36, by induction on the number of edges: a quiet edge in IDLE only samples the ports. -/
theorem idleWithoutOfferKeepsEveryRegister : Obligations.IdleWithoutOfferKeepsEveryRegister := by
  intro s k hphase hquiet
  induction k generalizing s with
  | zero => rfl
  | succ k ih =>
    obtain ⟨hrst, hvalid, hquiet'⟩ := quietFor_succ hquiet
    rw [run_succ k (step_of_noOffer hrst hphase hvalid), ih s.afterSample hphase hquiet']
    simp [State.afterSample]

end Sys2Proof.Machine
end

section
/-!
PROOFS. Any number of reset edges leaves the registers and outputs of R200.
-/

namespace Sys2Proof.Machine

/-- A stretch of resets is its first edge and the rest. -/
theorem resets_succ {s : State} {k : Nat} (hlen : k + 1 ≤ s.ports.length)
    (hrst : ∀ p ∈ s.ports.take (k + 1), p.rst = true) :
    s.port.rst = true ∧ (∀ p ∈ s.afterSample.ports.take k, p.rst = true) ∧
      k ≤ s.afterSample.ports.length := by
  cases hports : s.ports with
  | nil => simp [hports] at hlen
  | cons p ps => simpa [State.port, hports, and_assoc] using And.intro hrst hlen

/-- One reset edge sets every register, and each further one only samples the ports. -/
theorem run_of_resets {s : State} {k : Nat} (hlen : k + 1 ≤ s.ports.length)
    (hrst : ∀ p ∈ s.ports.take (k + 1), p.rst = true) :
    run (k + 1) s = .next (resetAll { s with ports := s.ports.drop (k + 1) }) := by
  induction k generalizing s with
  | zero =>
    obtain ⟨hport, -⟩ := resets_succ hlen hrst
    rw [run_succ 0 (step_of_rst hport), List.drop_one]
    rfl
  | succ k ih =>
    obtain ⟨hport, hrst', hlen'⟩ := resets_succ hlen hrst
    rw [run_succ (k + 1) (step_of_rst hport), ih (s := resetAll s.afterSample) hlen' hrst']
    simp [resetAll, State.afterSample]

theorem resetAll_outputs (s : State) : (resetAll s).outputs =
    { rs := false, e := false, d := 0x0#4, cmdReady := true, status := 0b0000#4 } := by
  simp [State.outputs, State.cmdReady, State.status, State.busy, ErrCode.code, Selector.level]

/-- Settles O26: after `k` reset edges the registers are those one reset edge sets. -/
theorem resetEdgesSetEveryRegister : Obligations.ResetEdgesSetEveryRegister := by
  intro s k hpos hlen hrst
  obtain ⟨m, rfl⟩ := Nat.exists_eq_add_of_le' hpos
  exact ⟨_, run_of_resets hlen hrst, resetAll_atReset _, rfl, rfl, resetAll_outputs _⟩

end Sys2Proof.Machine
end

section
/-!
PROOFS. The return to IDLE (R213, R214): while a command runs, each edge is one of the edges it has left, and it
has fewer than INIT's left because the lines carry its current nibble.
-/

namespace Sys2Proof.Machine

/-! ### The edges of the micro-ops still to begin -/

/-- The edges of the running sequence's micro-ops from index `u` on. -/
def State.edgesFrom (s : State) (u : Nat) : Nat := sequenceEdges s.build (s.sequence.drop u)

theorem edgesFrom_of_some {s : State} {u : Nat} {op : MicroOp} (hop : s.seqOp u = some op) :
    s.edgesFrom u = opEdges s.build op + s.edgesFrom (u + 1) := by
  obtain ⟨hu, rfl⟩ := List.getElem?_eq_some_iff.1 hop
  rw [State.edgesFrom, List.drop_eq_getElem_cons hu]
  rfl

theorem edgesFrom_of_end {s : State} {u : Nat} (hend : ¬ u < s.seqLen) : s.edgesFrom u = 0 := by
  rw [State.edgesFrom, List.drop_eq_nil_of_le (not_lt.1 hend)]
  rfl

theorem sequenceEdges_drop_le (P : Params) (ops : List MicroOp) (u : Nat) :
    sequenceEdges P (ops.drop u) ≤ sequenceEdges P ops := by
  induction ops generalizing u with
  | nil => simp
  | cons op ops ih =>
    cases u with
    | zero => exact le_rfl
    | succ u => exact (ih u).trans (Nat.le_add_left _ _)

/-- No sequence has more edges than INIT's (R214). -/
theorem edgesFrom_le_dInit (s : State) (u : Nat) : s.edgesFrom u ≤ dInit s.build := by
  refine (sequenceEdges_drop_le s.build s.sequence u).trans ?_
  cases hsrc : s.src with
  | init => rw [sequence_of_init hsrc, sequenceEdges_initRom]
  | host =>
    rw [sequence_of_host hsrc]
    cases s.hlen <;> simp only [hostSequence, sequenceEdges, opEdges, dInit] <;> omega

/-- A host command has no waits (R43). -/
theorem src_of_seqOp_wait {s : State} {u p : Nat} (hop : s.seqOp u = some (.wait p)) :
    s.src = .init := by
  cases hsrc : s.src with
  | init => rfl
  | host =>
    have hmem : MicroOp.wait p ∈ s.sequence := List.mem_of_getElem? hop
    rw [sequence_of_host hsrc] at hmem
    cases hlen : s.hlen <;> simp [hostSequence, hlen] at hmem

theorem opEdges_seqOp_pos {s : State} {u : Nat} {op : MicroOp} (hcounts : s.build.CountsPositive)
    (hop : s.seqOp u = some op) : 1 ≤ opEdges s.build op := by
  cases op with
  | nib r v => exact Nat.le_add_left _ _
  | wait p =>
    have hmem : MicroOp.wait p ∈ s.sequence := List.mem_of_getElem? hop
    rw [sequence_of_init (src_of_seqOp_wait hop)] at hmem
    exact opEdges_initRom_pos hcounts hmem

/-- The ROM's last micro-op is no wait, so after a wait there is always another micro-op (R140). -/
theorem wait_has_more {s : State} {u p : Nat} (hop : s.seqOp u = some (.wait p)) :
    u + 1 < s.seqLen := by
  have hseq : s.sequence = initRom s.build := sequence_of_init (src_of_seqOp_wait hop)
  have hlen : s.seqLen = 17 := by rw [State.seqLen, hseq, initRom_length]
  have hlt : u < s.seqLen := seqOp_some_lt hop
  have hne : u ≠ 16 := by
    rintro rfl
    simp [State.seqOp, hseq, initRom] at hop
  omega

/-- Where the sequence advances there is another micro-op: it ends only in a strobe (R49). -/
theorem State.Inv.more_of_advances {s : State} (hinv : s.Inv)
    (hphase : s.phase = .next ∨ (s.phase = .wait ∧ s.cnt = 0)) : s.upc.toNat + 1 < s.seqLen := by
  obtain hphase | ⟨hphase, -⟩ := hphase
  · exact hinv.next_has_more hphase
  · obtain ⟨p, hop, -⟩ := hinv.wait_cnt hphase
    exact wait_has_more hop

/-! ### The edges left of the running command -/

/-- The edges until the PE is IDLE: those left of the current micro-op, and those of the ones after it. -/
def State.edgesLeft (s : State) : Nat :=
  match s.phase with
  | .idle => 0
  | .rise => s.build.nEPulse + 1 + s.edgesFrom (s.upc.toNat + 1)
  | .high => s.cnt + 1 + s.edgesFrom (s.upc.toNat + 1)
  | .next => s.edgesFrom (s.upc.toNat + 1)
  | .wait => s.cnt + s.edgesFrom (s.upc.toNat + 1)

theorem edgesLeft_of_idle {s : State} (hphase : s.phase = .idle) : s.edgesLeft = 0 := by
  simp [State.edgesLeft, hphase]

theorem edgesLeft_of_rise {s : State} (hphase : s.phase = .rise) :
    s.edgesLeft = s.build.nEPulse + 1 + s.edgesFrom (s.upc.toNat + 1) := by
  simp [State.edgesLeft, hphase]

theorem edgesLeft_of_high {s : State} (hphase : s.phase = .high) :
    s.edgesLeft = s.cnt + 1 + s.edgesFrom (s.upc.toNat + 1) := by
  simp [State.edgesLeft, hphase]

theorem edgesLeft_of_wait {s : State} (hphase : s.phase = .wait) :
    s.edgesLeft = s.cnt + s.edgesFrom (s.upc.toNat + 1) := by
  simp [State.edgesLeft, hphase]

theorem edgesLeft_of_next {s : State} (hphase : s.phase = .next) :
    s.edgesLeft = s.edgesFrom (s.upc.toNat + 1) := by
  simp [State.edgesLeft, hphase]

theorem edgesLeft_of_advances {s : State}
    (hphase : s.phase = .next ∨ (s.phase = .wait ∧ s.cnt = 0)) :
    s.edgesLeft = s.edgesFrom (s.upc.toNat + 1) := by
  obtain hphase | ⟨hphase, hcnt⟩ := hphase
  · exact edgesLeft_of_next hphase
  · rw [edgesLeft_of_wait hphase, hcnt, Nat.zero_add]

/-- The begin edge of a micro-op is the first of its edges (R145). -/
theorem edgesLeft_beginOp {s : State} {op : MicroOp} (hop : s.seqOp s.upc.toNat = some op)
    (hpos : 1 ≤ opEdges s.build op) :
    (beginOp op s).edgesLeft + 1 = s.edgesFrom s.upc.toNat := by
  rw [edgesFrom_of_some hop]
  cases op with
  | nib r v =>
    have hleft : (beginNib r v s).edgesLeft = s.build.nEPulse + 1 + s.edgesFrom (s.upc.toNat + 1) :=
      edgesLeft_of_rise rfl
    simp only [beginOp, opEdges, hleft]
    omega
  | wait p =>
    have hleft : (beginWait p s).edgesLeft = p - 1 + s.edgesFrom (s.upc.toNat + 1) :=
      edgesLeft_of_wait rfl
    simp only [opEdges] at hpos
    simp only [beginOp, opEdges, hleft]
    omega

/-- While a command runs, each edge is one of the edges left. -/
theorem step_edgesLeft {s t : State} (hinv : s.Inv) (hcounts : s.build.CountsPositive)
    (hrst : s.port.rst = false) (hbusy : s.phase ≠ .idle) (h : step s = .next t) :
    t.edgesLeft + 1 = s.edgesLeft := by
  cases transition_of_step h with
  | reset hrst' => simp [hrst] at hrst'
  | quiet _ hphase | illegal _ hphase | notReady _ hphase | starts _ hphase =>
    exact absurd hphase hbusy
  | rises _ hphase =>
    have hleft : (nibRise s.afterSample).edgesLeft =
        s.build.nEPulse - 1 + 1 + s.edgesFrom (s.upc.toNat + 1) := edgesLeft_of_high rfl
    have hN : 1 ≤ s.build.nEPulse := hcounts.1
    rw [hleft, edgesLeft_of_rise hphase]
    omega
  | counts _ _ hphase hcnt =>
    obtain hphase | hphase := hphase
    · have hleft : { s.afterSample with cnt := s.cnt - 1 }.edgesLeft =
          s.cnt - 1 + 1 + s.edgesFrom (s.upc.toNat + 1) := edgesLeft_of_high hphase
      rw [hleft, edgesLeft_of_high hphase]
      omega
    · have hleft : { s.afterSample with cnt := s.cnt - 1 }.edgesLeft =
          s.cnt - 1 + s.edgesFrom (s.upc.toNat + 1) := edgesLeft_of_wait hphase
      rw [hleft, edgesLeft_of_wait hphase]
      omega
  | falls _ hphase hcnt =>
    rw [edgesLeft_of_high hphase, hcnt, Nat.zero_add, Nat.add_comm 1]
    rfl
  | fallsLast _ hphase hcnt hend =>
    rw [edgesLeft_of_high hphase, hcnt, edgesFrom_of_end hend]
    rfl
  | @begins op _ _ hphase hop =>
    have hcurrent : { s.afterSample with upc := s.upc + 1#5 }.seqOp (s.upc + 1#5).toNat =
        some op := by rwa [upc_succ_toNat hop]
    rw [edgesLeft_of_advances hphase, ← upc_succ_toNat hop]
    exact edgesLeft_beginOp hcurrent (opEdges_seqOp_pos hcounts hop)
  | completes _ _ hphase hend => exact absurd (hinv.more_of_advances hphase) hend

/-- A command that is running has fewer edges left than its current micro-op and those after it have. -/
theorem edgesLeft_lt_edgesFrom {s : State} (hinv : s.Inv) (hcarry : s.LinesCarryOp)
    (hcounts : s.build.CountsPositive) (hbusy : s.phase ≠ .idle) :
    s.edgesLeft < s.edgesFrom s.upc.toNat := by
  have hN : 1 ≤ s.build.nEPulse := hcounts.1
  cases hphase : s.phase with
  | idle => exact absurd hphase hbusy
  | rise =>
    rw [edgesLeft_of_rise hphase, edgesFrom_of_some (hcarry (.inl hphase)), opEdges]
    omega
  | high =>
    have hcnt := hinv.high_cnt hphase
    rw [edgesLeft_of_high hphase, edgesFrom_of_some (hcarry (.inr (.inl hphase))), opEdges]
    omega
  | next =>
    rw [edgesLeft_of_next hphase, edgesFrom_of_some (hcarry (.inr (.inr hphase))), opEdges]
    omega
  | wait =>
    obtain ⟨p, hop, hcnt⟩ := hinv.wait_cnt hphase
    have hp : 1 ≤ p := opEdges_seqOp_pos hcounts hop
    rw [edgesLeft_of_wait hphase, edgesFrom_of_some hop, opEdges]
    omega

theorem edgesLeft_lt_dInit {s : State} (hinv : s.Inv) (hcarry : s.LinesCarryOp)
    (hcounts : s.build.CountsPositive) : s.edgesLeft < dInit s.build := by
  by_cases hphase : s.phase = .idle
  · rw [edgesLeft_of_idle hphase, dInit]
    omega
  · exact (edgesLeft_lt_edgesFrom hinv hcarry hcounts hphase).trans_le (edgesFrom_le_dInit s _)

/-- A stretch without reset that is longer than the edges left reaches IDLE. -/
theorem run_to_idle {s : State} {n : Nat} (hinv : s.Inv) (hcounts : s.build.CountsPositive)
    (hleft : s.edgesLeft < n) (hno : s.NoReset n) :
    ∃ k, k < n ∧ ∃ t, run k s = .next t ∧ t.phase = .idle := by
  induction n generalizing s with
  | zero => exact absurd hleft (Nat.not_lt_zero _)
  | succ n ih =>
    by_cases hphase : s.phase = .idle
    · exact ⟨0, n.succ_pos, s, rfl, hphase⟩
    obtain ⟨u, hu⟩ := step_isNext s
    obtain ⟨hrst, hno'⟩ := noReset_succ hno hu
    have hdown : u.edgesLeft + 1 = s.edgesLeft := step_edgesLeft hinv hcounts hrst hphase hu
    have hcounts' : u.build.CountsPositive := (step_build_ports hu).1 ▸ hcounts
    obtain ⟨k, hk, t, hrun, ht⟩ := ih (step_keeps_inv hinv hu) hcounts' (by omega) hno'
    exact ⟨k + 1, Nat.succ_lt_succ hk, t, (run_succ k hu).trans hrun, ht⟩

/-- Settles O49: fewer than `D_INIT` edges are left, and each edge leaves one less. -/
theorem everyCommandReturnsToIdle : Obligations.EveryCommandReturnsToIdle :=
  fun _ hinv hcarry hcounts hno =>
    run_to_idle hinv hcounts (edgesLeft_lt_dInit hinv hcarry hcounts) hno

end Sys2Proof.Machine
end
